-- ==== Sys2Proof/Word.lean ====
section
/-! DEFINITION. The bit-vector types of the machine (spec 00_scope.md R5, R7, R9): every value is unsigned, bit 0 is the
least significant bit. Register numbers are `Fin 16`: the spec selects a register by them and never computes with them. -/

namespace Sys2Proof

/-- An 8-bit value: a general register, a timer, one byte of memory (R5). -/
abbrev Byte := BitVec 8

/-- A 16-bit value: I, PC, a call-stack entry, an opcode (R5). -/
abbrev Word := BitVec 16

/-- The 12-bit address immediate NNN (R72, R74). -/
abbrev Addr := BitVec 12

/-- A 4-bit field used as a number: the class and N (R72). -/
abbrev Nibble := BitVec 4

/-- A general register's index, `V[0]` to `V[15]` (R22). -/
abbrev Reg := Fin 16

/-- The sixteen register (and key) indices in increasing order. -/
abbrev allRegs : List Reg := [0, 1, 2, 3, 4, 5, 6, 7, 8, 9, 10, 11, 12, 13, 14, 15]

end Sys2Proof
end

