-- ==== Sys2Proof/Syntax.lean ====
section
/-! DEFINITION. The instructions of spec/opcode_table.json (30_encoding.md R76), one constructor a row, and the decoder's
fields (R72). Operands are the table's fields: `x`, `y` registers, `n` a 4-bit count, `nn` a byte, `nnn` a 12-bit address
(R74). SHR and SHL keep the Y field of their word although it has no effect (R74, R119, R121), so that no bit is lost. -/

namespace Sys2Proof

/-- One constructor per row of spec/opcode_table.json. The docstrings name the row and its rule. -/
inductive Instr where
  /-- CLS, R140. -/
  | cls
  /-- RET, R100. -/
  | ret
  /-- JP, R101. -/
  | jp (nnn : Addr)
  /-- CALL, R102. -/
  | call (nnn : Addr)
  /-- SE_IMM, R103. -/
  | seImm (x : Reg) (nn : Byte)
  /-- SNE_IMM, R104. -/
  | sneImm (x : Reg) (nn : Byte)
  /-- SE_REG, R105. -/
  | seReg (x y : Reg)
  /-- LD_IMM, R110. -/
  | ldImm (x : Reg) (nn : Byte)
  /-- ADD_IMM, R111. -/
  | addImm (x : Reg) (nn : Byte)
  /-- LD_REG, R112. -/
  | ldReg (x y : Reg)
  /-- OR, R113. -/
  | or (x y : Reg)
  /-- AND, R114. -/
  | and (x y : Reg)
  /-- XOR, R115. -/
  | xor (x y : Reg)
  /-- ADD_REG, R117. -/
  | addReg (x y : Reg)
  /-- SUB, R118. -/
  | sub (x y : Reg)
  /-- SHR, R119; `y` is decoded and ignored. -/
  | shr (x y : Reg)
  /-- SUBN, R120. -/
  | subn (x y : Reg)
  /-- SHL, R121; `y` is decoded and ignored. -/
  | shl (x y : Reg)
  /-- SNE_REG, R106. -/
  | sneReg (x y : Reg)
  /-- LD_I, R130. -/
  | ldI (nnn : Addr)
  /-- JP_V0, R107. -/
  | jpV0 (nnn : Addr)
  /-- RND, R122. -/
  | rnd (x : Reg) (nn : Byte)
  /-- DRW, R141 to R146. -/
  | drw (x y : Reg) (n : Nibble)
  /-- SKP, R150. -/
  | skp (x : Reg)
  /-- SKNP, R151. -/
  | sknp (x : Reg)
  /-- LD_VX_DT, R152. -/
  | ldVxDt (x : Reg)
  /-- LD_VX_K, R153. -/
  | ldVxK (x : Reg)
  /-- LD_DT, R154. -/
  | ldDt (x : Reg)
  /-- LD_ST, R155. -/
  | ldSt (x : Reg)
  /-- ADD_I, R131. -/
  | addI (x : Reg)
  /-- LD_F, R133. -/
  | ldF (x : Reg)
  /-- LD_B, R134. -/
  | ldB (x : Reg)
  /-- LD_MEM_VX (FX55), R135. -/
  | ldMemVx (x : Reg)
  /-- LD_VX_MEM (FX65), R136. -/
  | ldVxMem (x : Reg)
  deriving DecidableEq, Repr

/-- What the decoder reads from an opcode (R72). The fields overlap: `nn` is `y` and `n`, `nnn` is `x` and `nn`;
`Fields.wellFormed` says so. -/
structure Fields where
  cls : Nibble
  x : Reg
  y : Reg
  n : Nibble
  nn : Byte
  nnn : Addr
  deriving DecidableEq, Repr

end Sys2Proof
end

