-- ==== Sys2Proof/WellFormed.lean ====
section
/-! DEFINITION. The checks on data that comes from outside the machine.

An `Instr` needs no check: each operand's type is exactly the range its field can hold (R72, R74), so an ill-formed
instruction cannot be written down, and every value of every field is legal (R81: the ten one-instruction classes "accept
every value of their low 12 bits"). What can be ill-formed is checked here: the decoder's overlapping fields, the
configuration's FONT_BASE, the program image's length, and the numbers an assembler line holds. -/

namespace Sys2Proof

/-- R72: "The fields overlap: each is a slice of the same word". -/
def Fields.wellFormed (f : Fields) : Bool :=
  f.nn == (BitVec.ofFin f.y : Nibble) ++ f.n && f.nnn == (BitVec.ofFin f.x : Nibble) ++ f.nn

/-- R6: `FONT_BASE + 80 <= 0x200`. -/
def fontBaseAllowed (base : Nat) : Bool :=
  base + 80 ≤ 0x200

/-- R200, R203: an image of exactly 3584 bytes is accepted, a longer one is not. -/
def imageFits (len : Nat) : Bool :=
  len ≤ 4096 - 0x200

/-- R74, R85: a number written in an assembler line must fit the field of `bits` bits it stands for. -/
def numberFits (bits value : Nat) : Bool :=
  value < 2 ^ bits

end Sys2Proof
end

