-- ==== Sys2Proof/Decode.lean ====
section
/-! DEFINITION. The decoder (30_encoding.md R70 to R84), total on any bytes, rejecting unknown words by name, and the
encoder written from the same table (R73, R76). All bit patterns are the spec's decision D2 (UNVERIFIED, log 6; unsafe). -/

namespace Sys2Proof

/-- Why bytes are no instruction. -/
inductive DecodeError where
  /-- Fewer than two bytes: every instruction is exactly 2 bytes (R71). A machine's fetch never meets it. Safe. -/
  | truncated
  /-- The word matches no row of R76 (R82). Raised by the decoder; the tick turns it into Fatal(UnknownOpcode). Safe. -/
  | unknownOpcode (op : Word)
  deriving DecidableEq, Repr

/-! ### Fields (R72) -/

/-- R72: the slices of the opcode. -/
def fields (w : Word) : Fields where
  cls := w.extractLsb' 12 4
  x := (w.extractLsb' 8 4).toFin
  y := (w.extractLsb' 4 4).toFin
  n := w.extractLsb' 0 4
  nn := w.extractLsb' 0 8
  nnn := w.extractLsb' 0 12

/-! ### Decoding (R75 to R82) -/

/-- Class 0x0 decodes on the whole word (R77). -/
def decodeClass0 (w : Word) : Except DecodeError Instr :=
  if w = 0x00E0#16 then .ok .cls
  else if w = 0x00EE#16 then .ok .ret
  else .error (.unknownOpcode w)

/-- Class 0x5 decodes only with N = 0 (R81). -/
def decodeClass5 (w : Word) (f : Fields) : Except DecodeError Instr :=
  if f.n = 0x0#4 then .ok (.seReg f.x f.y) else .error (.unknownOpcode w)

/-- Class 0x8 decodes on N (R78). -/
def decodeClass8 (w : Word) (f : Fields) : Except DecodeError Instr :=
  match f.n with
  | 0x0#4 => .ok (.ldReg f.x f.y)
  | 0x1#4 => .ok (.or f.x f.y)
  | 0x2#4 => .ok (.and f.x f.y)
  | 0x3#4 => .ok (.xor f.x f.y)
  | 0x4#4 => .ok (.addReg f.x f.y)
  | 0x5#4 => .ok (.sub f.x f.y)
  | 0x6#4 => .ok (.shr f.x f.y)
  | 0x7#4 => .ok (.subn f.x f.y)
  | 0xE#4 => .ok (.shl f.x f.y)
  | _ => .error (.unknownOpcode w)

/-- Class 0x9 decodes only with N = 0 (R81). -/
def decodeClass9 (w : Word) (f : Fields) : Except DecodeError Instr :=
  if f.n = 0x0#4 then .ok (.sneReg f.x f.y) else .error (.unknownOpcode w)

/-- Class 0xE decodes on NN (R79). -/
def decodeClassE (w : Word) (f : Fields) : Except DecodeError Instr :=
  match f.nn with
  | 0x9E#8 => .ok (.skp f.x)
  | 0xA1#8 => .ok (.sknp f.x)
  | _ => .error (.unknownOpcode w)

/-- Class 0xF decodes on NN (R80). -/
def decodeClassF (w : Word) (f : Fields) : Except DecodeError Instr :=
  match f.nn with
  | 0x07#8 => .ok (.ldVxDt f.x)
  | 0x0A#8 => .ok (.ldVxK f.x)
  | 0x15#8 => .ok (.ldDt f.x)
  | 0x18#8 => .ok (.ldSt f.x)
  | 0x1E#8 => .ok (.addI f.x)
  | 0x29#8 => .ok (.ldF f.x)
  | 0x33#8 => .ok (.ldB f.x)
  | 0x55#8 => .ok (.ldMemVx f.x)
  | 0x65#8 => .ok (.ldVxMem f.x)
  | _ => .error (.unknownOpcode w)

/-- R75: dispatch on the class nibble, with the second step of the classes that have one. -/
def decodeFields (w : Word) (f : Fields) : Except DecodeError Instr :=
  match f.cls with
  | 0x0#4 => decodeClass0 w
  | 0x1#4 => .ok (.jp f.nnn)
  | 0x2#4 => .ok (.call f.nnn)
  | 0x3#4 => .ok (.seImm f.x f.nn)
  | 0x4#4 => .ok (.sneImm f.x f.nn)
  | 0x5#4 => decodeClass5 w f
  | 0x6#4 => .ok (.ldImm f.x f.nn)
  | 0x7#4 => .ok (.addImm f.x f.nn)
  | 0x8#4 => decodeClass8 w f
  | 0x9#4 => decodeClass9 w f
  | 0xA#4 => .ok (.ldI f.nnn)
  | 0xB#4 => .ok (.jpV0 f.nnn)
  | 0xC#4 => .ok (.rnd f.x f.nn)
  | 0xD#4 => .ok (.drw f.x f.y f.n)
  | 0xE#4 => decodeClassE w f
  | _ => decodeClassF w f

/-- R84: the total, deterministic decoder of one 16-bit word. -/
def decodeWord (w : Word) : Except DecodeError Instr :=
  decodeFields w (fields w)

/-- R56, R70: `op` is the byte at the lower address followed by the next one. -/
def wordOfBytes (hi lo : Byte) : Word :=
  hi ++ lo

/-- The byte at the lower address, `op[15:8]` (R56). -/
def highByte (w : Word) : Byte :=
  w.extractLsb' 8 8

/-- The byte at the higher address, `op[7:0]` (R56). -/
def lowByte (w : Word) : Byte :=
  w.extractLsb' 0 8

/-- Decoding a byte string: the first instruction and the bytes after it. -/
def decodeBytes : List Byte → Except DecodeError (Instr × List Byte)
  | hi :: lo :: rest => (decodeWord (wordOfBytes hi lo)).map fun i => (i, rest)
  | _ => .error .truncated

/-! ### Encoding (R73, R76) -/

/-- Format NNN (R73): the class nibble and a 12-bit address. -/
def packNNN (c : Nibble) (nnn : Addr) : Word :=
  c ++ nnn

/-- Formats XNN and XS (R73): the class nibble, X and a low byte. -/
def packXNN (c : Nibble) (x : Reg) (nn : Byte) : Word :=
  c ++ ((BitVec.ofFin x : Nibble) ++ nn)

/-- Formats XY0, XYS and XYN (R73): the class nibble, X, Y and a low nibble. -/
def packXYN (c : Nibble) (x y : Reg) (n : Nibble) : Word :=
  c ++ ((BitVec.ofFin x : Nibble) ++ ((BitVec.ofFin y : Nibble) ++ n))

/-- The word of an instruction (R76). -/
def encode : Instr → Word
  | .cls => 0x00E0#16
  | .ret => 0x00EE#16
  | .jp nnn => packNNN 0x1#4 nnn
  | .call nnn => packNNN 0x2#4 nnn
  | .seImm x nn => packXNN 0x3#4 x nn
  | .sneImm x nn => packXNN 0x4#4 x nn
  | .seReg x y => packXYN 0x5#4 x y 0x0#4
  | .ldImm x nn => packXNN 0x6#4 x nn
  | .addImm x nn => packXNN 0x7#4 x nn
  | .ldReg x y => packXYN 0x8#4 x y 0x0#4
  | .or x y => packXYN 0x8#4 x y 0x1#4
  | .and x y => packXYN 0x8#4 x y 0x2#4
  | .xor x y => packXYN 0x8#4 x y 0x3#4
  | .addReg x y => packXYN 0x8#4 x y 0x4#4
  | .sub x y => packXYN 0x8#4 x y 0x5#4
  | .shr x y => packXYN 0x8#4 x y 0x6#4
  | .subn x y => packXYN 0x8#4 x y 0x7#4
  | .shl x y => packXYN 0x8#4 x y 0xE#4
  | .sneReg x y => packXYN 0x9#4 x y 0x0#4
  | .ldI nnn => packNNN 0xA#4 nnn
  | .jpV0 nnn => packNNN 0xB#4 nnn
  | .rnd x nn => packXNN 0xC#4 x nn
  | .drw x y n => packXYN 0xD#4 x y n
  | .skp x => packXNN 0xE#4 x 0x9E#8
  | .sknp x => packXNN 0xE#4 x 0xA1#8
  | .ldVxDt x => packXNN 0xF#4 x 0x07#8
  | .ldVxK x => packXNN 0xF#4 x 0x0A#8
  | .ldDt x => packXNN 0xF#4 x 0x15#8
  | .ldSt x => packXNN 0xF#4 x 0x18#8
  | .addI x => packXNN 0xF#4 x 0x1E#8
  | .ldF x => packXNN 0xF#4 x 0x29#8
  | .ldB x => packXNN 0xF#4 x 0x33#8
  | .ldMemVx x => packXNN 0xF#4 x 0x55#8
  | .ldVxMem x => packXNN 0xF#4 x 0x65#8

/-- The two bytes of an instruction, lowest address first (R56). -/
def encodeBytes (i : Instr) : List Byte :=
  [highByte (encode i), lowByte (encode i)]

/-! ### The rows of spec/opcode_table.json -/

/-- The row's `match` and `mask`: a word belongs to the row when its bits under the mask are the match (R76, R84). -/
def tableRow : Instr → Word × Word
  | .cls => (0x00E0#16, 0xFFFF#16)
  | .ret => (0x00EE#16, 0xFFFF#16)
  | .jp _ => (0x1000#16, 0xF000#16)
  | .call _ => (0x2000#16, 0xF000#16)
  | .seImm _ _ => (0x3000#16, 0xF000#16)
  | .sneImm _ _ => (0x4000#16, 0xF000#16)
  | .seReg _ _ => (0x5000#16, 0xF00F#16)
  | .ldImm _ _ => (0x6000#16, 0xF000#16)
  | .addImm _ _ => (0x7000#16, 0xF000#16)
  | .ldReg _ _ => (0x8000#16, 0xF00F#16)
  | .or _ _ => (0x8001#16, 0xF00F#16)
  | .and _ _ => (0x8002#16, 0xF00F#16)
  | .xor _ _ => (0x8003#16, 0xF00F#16)
  | .addReg _ _ => (0x8004#16, 0xF00F#16)
  | .sub _ _ => (0x8005#16, 0xF00F#16)
  | .shr _ _ => (0x8006#16, 0xF00F#16)
  | .subn _ _ => (0x8007#16, 0xF00F#16)
  | .shl _ _ => (0x800E#16, 0xF00F#16)
  | .sneReg _ _ => (0x9000#16, 0xF00F#16)
  | .ldI _ => (0xA000#16, 0xF000#16)
  | .jpV0 _ => (0xB000#16, 0xF000#16)
  | .rnd _ _ => (0xC000#16, 0xF000#16)
  | .drw _ _ _ => (0xD000#16, 0xF000#16)
  | .skp _ => (0xE09E#16, 0xF0FF#16)
  | .sknp _ => (0xE0A1#16, 0xF0FF#16)
  | .ldVxDt _ => (0xF007#16, 0xF0FF#16)
  | .ldVxK _ => (0xF00A#16, 0xF0FF#16)
  | .ldDt _ => (0xF015#16, 0xF0FF#16)
  | .ldSt _ => (0xF018#16, 0xF0FF#16)
  | .addI _ => (0xF01E#16, 0xF0FF#16)
  | .ldF _ => (0xF029#16, 0xF0FF#16)
  | .ldB _ => (0xF033#16, 0xF0FF#16)
  | .ldMemVx _ => (0xF055#16, 0xF0FF#16)
  | .ldVxMem _ => (0xF065#16, 0xF0FF#16)

/-! ### The opcode table's numbering, for the host -/

/-- The 16-bit word whose bits, numbered as spec/opcode_table.json numbers them, are the low `nbits` bits of `w`; every bit
above them is 0. -/
def tableWord (nbits w : Nat) : Word :=
  BitVec.ofNat 16 (w % 2 ^ nbits)

/-- The instruction the decoder reads from that word, laid out as the hardware stores it: high byte first (R56). -/
def decodeTableWord (nbits w : Nat) : Option Instr :=
  match decodeBytes [highByte (tableWord nbits w), lowByte (tableWord nbits w)] with
  | .ok (i, _) => some i
  | .error _ => none

end Sys2Proof
end

