-- ==== Sys2Proof/Config.lean ====
section
/-! DEFINITION. What the spec leaves to the machine instance (00_scope.md R6): FONT_BASE, DRAW_EDGE and the random source.
The fixed parameters of R5 are the widths of State's fields and the numbers of Machine/Params.lean. -/

namespace Sys2Proof

/-- `DRAW_EDGE` (R144): what happens to a sprite pixel whose target is off the grid. -/
inductive DrawEdge where
  /-- It is not drawn and cannot collide. -/
  | clip
  /-- Its target is reduced modulo 64 and 32. -/
  | wrap
  deriving DecidableEq, Repr, Inhabited

/-- The configuration of one machine instance (R6), plain data so that a statement over all states holds for every
configuration (DESIGN CHOICE, log 1; safe). -/
structure Config where
  /-- `FONT_BASE`; the bound 433 is R6's `FONT_BASE + 80 <= 0x200`. -/
  fontBase : Fin 433
  /-- `DRAW_EDGE`. -/
  drawEdge : DrawEdge
  /-- Which injected random source (`RNG`, R13) this instance was constructed with: a name for it, not its bytes. -/
  rng : Nat
  deriving DecidableEq, Repr, Inhabited

/-- FREE VALUE (R13, R122, K2; DESIGN CHOICE, log 2; safe). Byte `position` of the injected random source `source`. It has
no body: nothing in Lean can evaluate it, so a claim about RND holds for every draw. -/
opaque Config.randomByte (source position : Nat) : Byte

end Sys2Proof
end

