-- ==== Sys2Proof/Machine/Params.lean ====
section
/-! DEFINITION. The numbers of the machine that a reader checks against 00_scope.md R5, 10_state.md R40 and 42_index_memory.md
R132: the spec's defaults, the values after construction, the font table. -/

namespace Sys2Proof.Machine

/-- The spec's default of FONT_BASE (R5, D9: "spec default 0x050"; log 1). -/
def fontBaseDefault : Fin 433 := 0x050

/-- The spec's default of DRAW_EDGE (R5, D12: "spec default CLIP"; log 1). -/
def drawEdgeDefault : DrawEdge := .clip

/-- `LOAD_OFFSET` (R5): where the program image begins. -/
def loadOffset : Nat := 0x200

/-- PC after construction, the entry point (R40, R201, D7; log 11). -/
def entryPc : Word := 0x0200#16

/-- `FLAG_REG` (R5, R23, D1; UNVERIFIED, log 5; unsafe): VF is V[15]. -/
def flagReg : Reg := 15

/-- R132, D10 (UNVERIFIED, log 13; unsafe): the 16 glyphs of 5 bytes, glyph 0 first. -/
def fontTable : List Byte :=
  [0xF0, 0x90, 0x90, 0x90, 0xF0] ++ [0x20, 0x60, 0x20, 0x20, 0x70] ++ [0xF0, 0x10, 0xF0, 0x80, 0xF0] ++
  [0xF0, 0x10, 0xF0, 0x10, 0xF0] ++ [0x90, 0x90, 0xF0, 0x10, 0x10] ++ [0xF0, 0x80, 0xF0, 0x10, 0xF0] ++
  [0xF0, 0x80, 0xF0, 0x90, 0xF0] ++ [0xF0, 0x10, 0x20, 0x40, 0x40] ++ [0xF0, 0x90, 0xF0, 0x90, 0xF0] ++
  [0xF0, 0x90, 0xF0, 0x10, 0xF0] ++ [0xF0, 0x90, 0xF0, 0x90, 0x90] ++ [0xE0, 0x90, 0xE0, 0x90, 0xE0] ++
  [0xF0, 0x80, 0x80, 0x80, 0xF0] ++ [0xE0, 0x90, 0x90, 0x90, 0xE0] ++ [0xF0, 0x80, 0xF0, 0x80, 0xF0] ++
  [0xF0, 0x80, 0xF0, 0x80, 0x80]

/-- The byte of the font table at offset `i`; 0 past its 80 bytes. -/
def fontByte (i : Nat) : Byte :=
  fontTable.getD i 0

end Sys2Proof.Machine
end

