-- ==== Sys2Proof/Machine/State.lean ====
section
/-! DEFINITION. The state as plain data (10_state.md R20), the reasons a step can stop, and the state after construction
(R40). -/

namespace Sys2Proof.Machine

/-- Memory as (address, byte) pairs in one canonical form (`Memory.wf` of Machine/Ops.lean): addresses strictly rising and
below 4096, no pair equal to what its address reads as when unlisted (`initialByte`, the byte after construction). -/
abbrev Memory := List Host.Cell

/-- The 64 × 32 pixels, `fb[x][y]` with column x and row y (R37). -/
abbrev Frame := Vector (Vector Bool 32) 64

/-- The run state (R34, R169). -/
inductive RunState where
  | running
  | paused
  | halted
  deriving DecidableEq, Repr

/-- The three fatal execution errors (R160, R162). -/
inductive FatalKind where
  /-- CALL with SP = 16 (R102). -/
  | stackOverflow
  /-- RET with SP = 0 (R100). -/
  | stackUnderflow
  /-- The fetched word matches no row of the opcode map (R82). -/
  | unknownOpcode
  deriving DecidableEq, Repr

/-- The five error kinds of R160: two at load time, three fatal. -/
inductive ErrorKind where
  /-- `construct` of an image longer than 3584 bytes (R161, R200). -/
  | imageTooLarge
  /-- The external loader's I/O failure (R161); the core never raises it. -/
  | imageUnreadable
  /-- A fatal execution error. -/
  | fatal (k : FatalKind)
  deriving DecidableEq, Repr

/-- What `tick()` returns (R175). -/
inductive TickOutcome where
  | normal
  | paused
  | halted
  | fatal (k : FatalKind)
  deriving DecidableEq, Repr

/-- Reasons to stop with a host fault. There is none: the spec gives every situation an effect, and its fatal errors are
next states with RUN = HALTED (R163; log 4). -/
inductive Fault where
  deriving DecidableEq, Repr

/-- Reasons to refuse an instruction. -/
inductive Refusal where
  /-- Raised by exec's arm of an instruction that has no meaning yet; every instruction has one, so no arm raises it. Safe:
  the machine would stop where the hardware goes on. -/
  | notModelled (mnemonic : String)
  deriving DecidableEq, Repr

end Sys2Proof.Machine

namespace Sys2Proof.Machine

/-- The state. The first twelve fields are the spec's tuple (R20); the last three are the model's own (log 1, 2, 3). -/
structure State where
  /-- MEM (R39, R50). -/
  mem : Memory
  /-- V[0] to V[15] (R22); V[15] is VF (R23). -/
  v : Vector Byte 16
  /-- I (R30). -/
  i : Word
  /-- PC (R26). -/
  pc : Word
  /-- STACK[0] to STACK[15] (R36). -/
  stack : Vector Word 16
  /-- SP, 0 to 16 (R31). -/
  sp : Fin 17
  /-- DT (R32). -/
  dt : Byte
  /-- ST (R33). -/
  st : Byte
  /-- FB (R37). -/
  fb : Frame
  /-- KEY (R38). -/
  key : Vector Bool 16
  /-- BEEP (R35). -/
  beep : Bool
  /-- RUN (R34). -/
  run : RunState
  /-- FONT_BASE, DRAW_EDGE and RNG of this instance (R6); constant (log 1). -/
  cfg : Config
  /-- How many bytes RND has taken from the random source, its position (R41; log 2). -/
  draws : Nat
  /-- What the last `tick()` returned (R175, R194); none before the first (log 3). -/
  outcome : Option TickOutcome
  deriving DecidableEq, Repr

/-- The machine right after `construct` of the empty image under configuration `c` (R40, R200, R203). -/
def State.fresh (c : Config) : State where
  mem := []
  v := Vector.replicate 16 0
  i := 0
  pc := entryPc
  stack := Vector.replicate 16 0
  sp := 0
  dt := 0
  st := 0
  fb := Vector.replicate 64 (Vector.replicate 32 false)
  key := Vector.replicate 16 false
  beep := false
  run := .running
  cfg := c
  draws := 0
  outcome := none

/-- The machine right after reset: construction is the only reset (R202), here of the empty image with the spec's default
parameters (log 1, 2, 28). -/
def State.reset : State :=
  State.fresh ⟨fontBaseDefault, drawEdgeDefault, 0⟩

end Sys2Proof.Machine
end

