-- ==== Sys2Proof/Machine/Ops.lean ====
section
/-! DEFINITION. The named operations every meaning is written over: field updates, memory (20_memory.md R50 to R61), registers
(10_state.md R22, R23), the call stack (R31, R36), the fatal error (60_exceptions.md R163), the framebuffer (R37, R144, R145),
the random draw (00_scope.md R13) and the timer step (R176, R177). -/

namespace Sys2Proof.Machine

/-- How a meaning ends. -/
abbrev Result := Host.Outcome State Fault Refusal

/-! ### Updates of one field -/

def State.setMem (m : Memory) (s : State) : State := { s with mem := m }
def State.setV (x : Reg) (b : Byte) (s : State) : State := { s with v := s.v.set x b }
def State.setI (w : Word) (s : State) : State := { s with i := w }
def State.setPc (w : Word) (s : State) : State := { s with pc := w }
def State.setStack (k : Fin 16) (w : Word) (s : State) : State := { s with stack := s.stack.set k w }
def State.setSp (k : Fin 17) (s : State) : State := { s with sp := k }
def State.setDt (b : Byte) (s : State) : State := { s with dt := b }
def State.setSt (b : Byte) (s : State) : State := { s with st := b }
def State.setFb (f : Frame) (s : State) : State := { s with fb := f }
def State.setKey (k : Fin 16) (pressed : Bool) (s : State) : State := { s with key := s.key.set k pressed }
def State.setBeep (b : Bool) (s : State) : State := { s with beep := b }
def State.setRun (r : RunState) (s : State) : State := { s with run := r }
def State.setDraws (n : Nat) (s : State) : State := { s with draws := n }
def State.setOutcome (o : TickOutcome) (s : State) : State := { s with outcome := some o }

/-! ### Memory -/

/-- What an unlisted address reads as: the byte after construction of an empty image (R40, R51; D8, D9, D10; log 12, 13). -/
def initialByte (c : Config) (a : Nat) : Byte :=
  if c.fontBase.val ≤ a then fontByte (a - c.fontBase.val) else 0

/-- The canonical form: addresses strictly rising and below 4096, no entry equal to what its address reads as unlisted. -/
abbrev Memory.wf (c : Config) (m : Memory) : Prop :=
  m.Pairwise (fun p q => p.1 < q.1) ∧ ∀ p ∈ m, p.1 < 4096 ∧ p.2 ≠ initialByte c p.1

/-- The listed byte of address `a`, if there is one. -/
def Memory.find (a : Nat) : Memory → Option Byte
  | [] => none
  | p :: m => if p.1 = a then some p.2 else Memory.find a m

/-- Remove the entry of address `a`. -/
def Memory.erase (a : Nat) : Memory → Memory
  | [] => []
  | p :: m => if p.1 = a then m else p :: Memory.erase a m

/-- List byte `b` at address `a`, in order. -/
def Memory.insert (a : Nat) (b : Byte) : Memory → Memory
  | [] => [(a, b)]
  | p :: m =>
    if a < p.1 then (a, b) :: p :: m
    else if a = p.1 then (a, b) :: m
    else p :: Memory.insert a b m

/-- The byte at address `a`, `a < 4096`. -/
def Memory.read (c : Config) (m : Memory) (a : Nat) : Byte :=
  (Memory.find a m).getD (initialByte c a)

/-- Store byte `b` at address `a`, `a < 4096`, keeping the canonical form. -/
def Memory.write (c : Config) (a : Nat) (b : Byte) (m : Memory) : Memory :=
  if b = initialByte c a then Memory.erase a m else Memory.insert a b m

/-- R53: every access reduces its address modulo 4096 (D4; UNVERIFIED, log 8; unsafe). -/
def cellOf (a : Nat) : Nat :=
  a % 4096

/-- `MemRead(a, 1)` (R11, R53). -/
def readByte (a : Nat) (s : State) : Byte :=
  Memory.read s.cfg s.mem (cellOf a)

/-- `MemWrite(a, 1, b)` (R11, R53). No address is protected (R55, D23; log 25). -/
def writeByte (a : Nat) (b : Byte) (s : State) : State :=
  s.setMem (Memory.write s.cfg (cellOf a) b s.mem)

/-- Store a list of bytes at rising addresses from `a`, each address reduced on its own (R54, R56). -/
def writeBytes (a : Nat) : List Byte → State → State
  | [], s => s
  | b :: bs, s => writeBytes (a + 1) bs (writeByte a b s)

/-- Load registers from rising addresses, `V[k] <- MemRead(base + k, 1)` for each `k` of the list in order (R136). -/
def loadRegs (base : Nat) : List Reg → State → State
  | [], s => s
  | k :: ks, s => loadRegs base ks (s.setV k (readByte (base + k.val) s))

/-! ### Fetch -/

/-- R70: the opcode at PC, two one-byte reads, big-endian (R56); the second address is `trunc16(PC + 1)`. -/
def fetchWord (s : State) : Word :=
  wordOfBytes (readByte s.pc.toNat s) (readByte (s.pc + 1).toNat s)

/-- `PC <- trunc16(PC + 2)`: the fetch advance and the skip advance (R27, R70; D5, log 9). -/
def advancePc (s : State) : State :=
  s.setPc (s.pc + 2)

/-- `PC <- trunc16(PC - 2)`: the rewind of a waiting LD_VX_K (R27, R153). -/
def rewindPc (s : State) : State :=
  s.setPc (s.pc - 2)

/-- `if cond then PC <- trunc16(PC + 2)` (R103 to R106, R150, R151). -/
def skipIf (cond : Bool) (s : State) : State :=
  if cond then advancePc s else s

/-! ### Fatal errors -/

/-- R163, the one way an instruction or the decoder fails: RUN <- HALTED and `tick()` returns Fatal(k); everything else stays
as the fetch left it, so PC is past the faulting instruction (R162; D18, log 21). HALTED is terminal: nothing returns from it
(R164). -/
def raiseFatal (k : FatalKind) (s : State) : Result :=
  .next ((s.setRun .halted).setOutcome (.fatal k))

/-- R160, D18: the numeric codes of the error kinds. -/
def errorCode : ErrorKind → Nat
  | .imageTooLarge => 1
  | .imageUnreadable => 2
  | .fatal .stackOverflow => 3
  | .fatal .stackUnderflow => 4
  | .fatal .unknownOpcode => 5

/-! ### Call stack -/

/-- Push `w` and go on with `next`, or raise StackOverflow when SP = 16; the check precedes every write (R12, R31, R102). -/
def pushThen (w : Word) (next : State → Result) (s : State) : Result :=
  if h : s.sp.val < 16 then
    next ((s.setStack ⟨s.sp.val, h⟩ w).setSp ⟨s.sp.val + 1, by omega⟩)
  else raiseFatal .stackOverflow s

/-- Pop the top entry and go on with `next`, or raise StackUnderflow when SP = 0. The entry keeps its value in the stack
(R36, R100; D24, log 26). -/
def popThen (next : Word → State → Result) (s : State) : Result :=
  if h : 0 < s.sp.val then
    next (s.stack[s.sp.val - 1]'(by omega)) (s.setSp ⟨s.sp.val - 1, by omega⟩)
  else raiseFatal .stackUnderflow s

/-! ### Framebuffer -/

/-- The pixel at column `x`, row `y` (R37). -/
def pixel (f : Frame) (x : Fin 64) (y : Fin 32) : Bool :=
  f[x][y]

/-- The framebuffer with that pixel set to `b`. -/
def setPixel (f : Frame) (x : Fin 64) (y : Fin 32) (b : Bool) : Frame :=
  f.set x (f[x].set y b)

/-- All 2048 pixels false (R140). -/
def blankFrame : Frame :=
  Vector.replicate 64 (Vector.replicate 32 false)

/-- R144: the grid pixel a target lands on, or none where `DRAW_EDGE` is CLIP and the target is off the grid (D12, log 15). -/
def place (edge : DrawEdge) (x y : Nat) : Option (Fin 64 × Fin 32) :=
  if h : x < 64 ∧ y < 32 then some (⟨x, h.1⟩, ⟨y, h.2⟩)
  else
    match edge with
    | .clip => none
    | .wrap => some (⟨x % 64, Nat.mod_lt _ (by decide)⟩, ⟨y % 32, Nat.mod_lt _ (by decide)⟩)

/-- A framebuffer being drawn on, and whether a set pixel has been cleared so far (R145). -/
abbrev Canvas := Frame × Bool

/-- R145: one set sprite bit toggles its pixel and collides if the pixel was set. -/
def drawBit (edge : DrawEdge) (x y : Nat) (c : Canvas) : Canvas :=
  match place edge x y with
  | none => c
  | some (px, py) => (setPixel c.1 px py (!pixel c.1 px py), c.2 || pixel c.1 px py)

/-- R145: the bits of one row byte in rising column order; bit `7 - col` is column `col` (R142; D11; UNVERIFIED,
log 14; unsafe). -/
def drawCols (edge : DrawEdge) (x y : Nat) (b : Byte) : List Nat → Canvas → Canvas
  | [], c => c
  | col :: cols, c =>
    drawCols edge x y b cols (if b.getLsbD (7 - col) then drawBit edge (x + col) y c else c)

/-- R145: the rows of a sprite in rising order. -/
def drawRows (edge : DrawEdge) (x y : Nat) : List Byte → Canvas → Canvas
  | [], c => c
  | b :: bs, c => drawRows edge x (y + 1) bs (drawCols edge x y b [0, 1, 2, 3, 4, 5, 6, 7] c)

/-! ### Random source -/

/-- `RandomByte()` (R13): the next byte of the injected source. -/
def nextRandom (s : State) : Byte :=
  Config.randomByte s.cfg.rng s.draws

/-- One byte of the random source consumed (R122, R193; D21, log 2). -/
def consumeRandom (s : State) : State :=
  s.setDraws (s.draws + 1)

/-! ### Keys -/

/-- `min { k | KEY[k] }`, none where no key is pressed (R153). -/
def lowestKey (s : State) : Option Reg :=
  allRegs.find? fun k => s.key[k]

/-! ### Timer step -/

/-- R176: `if DT > 0 then DT <- DT - 1`. -/
def delayStep (s : State) : State :=
  s.setDt (if s.dt = 0 then 0 else s.dt - 1)

/-- R177: `if ST > 0 then (if ST == 1 then BEEP <- true); ST <- ST - 1` (D20, log 23). -/
def soundStep (s : State) : State :=
  (s.setBeep (s.beep || s.st == 1)).setSt (if s.st = 0 then 0 else s.st - 1)

/-- R174: the timer step, once per completed RUNNING tick (R178; D19, log 22). -/
def timerStep (s : State) : State :=
  soundStep (delayStep s)

end Sys2Proof.Machine
end

