-- ==== Sys2Proof/Machine/Operands.lean ====
section
/-! DEFINITION. Every operand form (30_encoding.md R74) and every address formed from a register (R133 to R136, R141, R142,
R150). -/

namespace Sys2Proof.Machine

/-- `V[x]` (R10, R22). -/
def reg (x : Reg) (s : State) : Byte :=
  s.v[x]

/-- `zext_16(NNN)` (R74). -/
def addrOperand (nnn : Addr) : Word :=
  nnn.zeroExtend 16

/-- `zext_16(V[x])` (R107, R131, R133). -/
def wordOperand (x : Reg) (s : State) : Word :=
  (reg x s).zeroExtend 16

/-- The number of a 4-bit count operand (R74). -/
def countOperand (n : Nibble) : Nat :=
  n.toNat

/-- The registers `V[0]` to `V[x]`, inclusive, in order (R135, R136). -/
def regsUpTo (x : Reg) : List Reg :=
  allRegs.take (x.val + 1)

/-- The base address an indirect access starts from (R30, R134 to R136, R142). -/
def indexBase (s : State) : Nat :=
  s.i.toNat

/-- `trunc16(FONT_BASE + 5 * zext_16(V[x]))`, the whole byte and no nibble mask (R133; D17, log 20). -/
def fontAddress (x : Reg) (s : State) : Word :=
  BitVec.ofNat 16 (s.cfg.fontBase.val + 5 * (reg x s).toNat)

/-- The key latch slot `V[x] mod 16` tests (R150; D17, log 20). -/
def keyPressed (x : Reg) (s : State) : Bool :=
  s.key[(reg x s).toNat % 16]'(Nat.mod_lt _ (by decide))

/-- `x0 = V[x] mod 64` (R141). -/
def startColumn (x : Reg) (s : State) : Nat :=
  (reg x s).toNat % 64

/-- `y0 = V[y] mod 32` (R141). -/
def startRow (y : Reg) (s : State) : Nat :=
  (reg y s).toNat % 32

/-- The sprite: bytes `I + 0` to `I + n - 1`, each address reduced on its own (R142). -/
def spriteBytes (n : Nibble) (s : State) : List Byte :=
  (List.range (countOperand n)).map fun r => readByte (indexBase s + r) s

/-- The three decimal digits of a byte, hundreds first (R134). -/
def decimalDigits (d : Byte) : List Byte :=
  [BitVec.ofNat 8 (d.toNat / 100), BitVec.ofNat 8 (d.toNat / 10 % 10), BitVec.ofNat 8 (d.toNat % 10)]

end Sys2Proof.Machine
end

