-- ==== Sys2Proof/Machine/Flags.lean ====
section
/-! DEFINITION. Every flag computation (10_state.md R29) and the one order in which a result and its flag are written
(41_alu.md R116). -/

namespace Sys2Proof.Machine

/-- A flag is 0 or 1 (R29). -/
def flagByte (set : Bool) : Byte :=
  if set then 1 else 0

/-- ADD_REG: 1 iff the 9-bit sum is greater than 255 (R117). -/
def carryFlag (a b : Byte) : Bool :=
  decide (a.toNat + b.toNat > 255)

/-- SUB, and SUBN with its operands exchanged: 1 iff `a > b`, strictly (R118, R120; C11). -/
def noBorrowFlag (a b : Byte) : Bool :=
  decide (a.toNat > b.toNat)

/-- SHR: the bit shifted out, bit 0 (R119). -/
def lowBitFlag (a : Byte) : Bool :=
  a.getLsbD 0

/-- SHL: the bit shifted out, bit 7 (R121). -/
def highBitFlag (a : Byte) : Bool :=
  a.getLsbD 7

/-- `VF <- flag` (R29). -/
def setFlag (set : Bool) (s : State) : State :=
  s.setV flagReg (flagByte set)

/-- R116: `V[x] <- result`, then `VF <- flag`, both computed before either is written. For x = 15 the flag wins (D13;
UNVERIFIED, log 16; unsafe). -/
def setResultAndFlag (x : Reg) (result : Byte) (set : Bool) (s : State) : State :=
  setFlag set (s.setV x result)

end Sys2Proof.Machine
end

