-- ==== Sys2Proof/Machine/Alu.lean ====
section
/-! DEFINITION. Register load, arithmetic, logic, shift and random instructions (41_alu.md R110 to R122). None raises an error
and none touches PC. -/

namespace Sys2Proof.Machine

/-- LD_IMM (R110). -/
def execLdImm (x : Reg) (nn : Byte) (s : State) : Result :=
  .next (s.setV x nn)

/-- ADD_IMM (R111): modulo 256, no flag. -/
def execAddImm (x : Reg) (nn : Byte) (s : State) : Result :=
  .next (s.setV x (reg x s + nn))

/-- LD_REG (R112). -/
def execLdReg (x y : Reg) (s : State) : Result :=
  .next (s.setV x (reg y s))

/-- OR (R113): VF unchanged unless x = 15 (D15, log 18). -/
def execOr (x y : Reg) (s : State) : Result :=
  .next (s.setV x (reg x s ||| reg y s))

/-- AND (R114): VF unchanged unless x = 15 (D15, log 18). -/
def execAnd (x y : Reg) (s : State) : Result :=
  .next (s.setV x (reg x s &&& reg y s))

/-- XOR (R115): VF unchanged unless x = 15 (D15, log 18). -/
def execXor (x y : Reg) (s : State) : Result :=
  .next (s.setV x (reg x s ^^^ reg y s))

/-- ADD_REG (R117, R116). -/
def execAddReg (x y : Reg) (s : State) : Result :=
  .next (setResultAndFlag x (reg x s + reg y s) (carryFlag (reg x s) (reg y s)) s)

/-- SUB (R118, R116): `Vx - Vy`. -/
def execSub (x y : Reg) (s : State) : Result :=
  .next (setResultAndFlag x (reg x s - reg y s) (noBorrowFlag (reg x s) (reg y s)) s)

/-- SHR (R119, R116): in place; the word's Y field has no effect. -/
def execShr (x _y : Reg) (s : State) : Result :=
  .next (setResultAndFlag x (reg x s >>> 1) (lowBitFlag (reg x s)) s)

/-- SUBN (R120, R116): `Vy - Vx`. -/
def execSubn (x y : Reg) (s : State) : Result :=
  .next (setResultAndFlag x (reg y s - reg x s) (noBorrowFlag (reg y s) (reg x s)) s)

/-- SHL (R121, R116): in place; the word's Y field has no effect. -/
def execShl (x _y : Reg) (s : State) : Result :=
  .next (setResultAndFlag x (reg x s <<< 1) (highBitFlag (reg x s)) s)

/-- RND (R122): one draw, whatever `nn` is, masked (C1). -/
def execRnd (x : Reg) (nn : Byte) (s : State) : Result :=
  .next ((consumeRandom s).setV x (nextRandom s &&& nn))

end Sys2Proof.Machine
end

