-- ==== Sys2Proof/Machine/Control.lean ====
section
/-! DEFINITION. Control-transfer instructions (40_control_flow.md R100 to R108). When a meaning runs, PC already holds the
instruction's own address plus 2 (R26, R70). No target is aligned or checked (R28, R108). -/

namespace Sys2Proof.Machine

/-- RET (R100). -/
def execRet (s : State) : Result :=
  popThen (fun target t => .next (t.setPc target)) s

/-- JP (R101). -/
def execJp (nnn : Addr) (s : State) : Result :=
  .next (s.setPc (addrOperand nnn))

/-- CALL (R102): the pushed return address is the advanced PC. -/
def execCall (nnn : Addr) (s : State) : Result :=
  pushThen s.pc (fun t => .next (t.setPc (addrOperand nnn))) s

/-- SE_IMM (R103). -/
def execSeImm (x : Reg) (nn : Byte) (s : State) : Result :=
  .next (skipIf (reg x s == nn) s)

/-- SNE_IMM (R104). -/
def execSneImm (x : Reg) (nn : Byte) (s : State) : Result :=
  .next (skipIf (reg x s != nn) s)

/-- SE_REG (R105). -/
def execSeReg (x y : Reg) (s : State) : Result :=
  .next (skipIf (reg x s == reg y s) s)

/-- SNE_REG (R106). -/
def execSneReg (x y : Reg) (s : State) : Result :=
  .next (skipIf (reg x s != reg y s) s)

/-- JP_V0 (R107): always V0; the sum is at most 0x10FE and PC keeps it whole. -/
def execJpV0 (nnn : Addr) (s : State) : Result :=
  .next (s.setPc (addrOperand nnn + wordOperand 0 s))

end Sys2Proof.Machine
end

