-- ==== Sys2Proof/Machine/Display.lean ====
section
/-! DEFINITION. Display instructions (43_display.md R140 to R146). -/

namespace Sys2Proof.Machine

/-- CLS (R140). -/
def execCls (s : State) : Result :=
  .next (s.setFb blankFrame)

/-- What DRW draws: the framebuffer afterwards and whether a set pixel was cleared (R141, R142, R144, R145). The coordinates
and the sprite are read from the state before VF is reset (R141; D14, log 17). -/
def drawing (x y : Reg) (n : Nibble) (s : State) : Canvas :=
  drawRows s.cfg.drawEdge (startColumn x s) (startRow y s) (spriteBytes n s) (s.fb, false)

/-- DRW (R146): VF is reset (R143), the sprite is drawn, VF receives the collision (R145). -/
def execDrw (x y : Reg) (n : Nibble) (s : State) : Result :=
  .next (setFlag (drawing x y n s).2 ((setFlag false s).setFb (drawing x y n s).1))

end Sys2Proof.Machine
end

