-- ==== Sys2Proof/Machine/Index.lean ====
section
/-! DEFINITION. Index register and memory instructions (42_index_memory.md R130 to R137). None raises an error; every address is
reduced modulo 4096 at the access (R53). -/

namespace Sys2Proof.Machine

/-- LD_I (R130). -/
def execLdI (nnn : Addr) (s : State) : Result :=
  .next (s.setI (addrOperand nnn))

/-- ADD_I (R131): modulo 2^16, VF unchanged (D6, log 10). -/
def execAddI (x : Reg) (s : State) : Result :=
  .next (s.setI (s.i + wordOperand x s))

/-- LD_F (R133). -/
def execLdF (x : Reg) (s : State) : Result :=
  .next (s.setI (fontAddress x s))

/-- LD_B (R134): I unchanged. -/
def execLdB (x : Reg) (s : State) : Result :=
  .next (writeBytes (indexBase s) (decimalDigits (reg x s)) s)

/-- LD_MEM_VX, FX55 (R135): I unchanged (D16, log 19). -/
def execLdMemVx (x : Reg) (s : State) : Result :=
  .next (writeBytes (indexBase s) ((regsUpTo x).map fun k => reg k s) s)

/-- LD_VX_MEM, FX65 (R136): I unchanged (D16, log 19). -/
def execLdVxMem (x : Reg) (s : State) : Result :=
  .next (loadRegs (indexBase s) (regsUpTo x) s)

end Sys2Proof.Machine
end

