-- ==== Sys2Proof/Machine/TimersKeys.lean ====
section
/-! DEFINITION. Key and timer instructions (44_timers_keys.md R150 to R155). The timer step that follows in the same tick is
`timerStep` of Machine/Ops.lean (60_exceptions.md R174). -/

namespace Sys2Proof.Machine

/-- SKP (R150): the latch is only read. -/
def execSkp (x : Reg) (s : State) : Result :=
  .next (skipIf (keyPressed x s) s)

/-- SKNP (R151): the latch is only read. -/
def execSknp (x : Reg) (s : State) : Result :=
  .next (skipIf (!keyPressed x s) s)

/-- LD_VX_DT (R152). -/
def execLdVxDt (x : Reg) (s : State) : Result :=
  .next (s.setV x s.dt)

/-- LD_VX_K (R153): level-sensitive, the latch is not cleared (D30, log 30). -/
def execLdVxK (x : Reg) (s : State) : Result :=
  match lowestKey s with
  | none => .next (rewindPc s)
  | some k => .next (s.setV x (BitVec.ofNat 8 k.val))

/-- LD_DT (R154). -/
def execLdDt (x : Reg) (s : State) : Result :=
  .next (s.setDt (reg x s))

/-- LD_ST (R155). -/
def execLdSt (x : Reg) (s : State) : Result :=
  .next (s.setSt (reg x s))

end Sys2Proof.Machine
end

