-- ==== Sys2Proof/Machine/Tick.lean ====
section
/-! DEFINITION. One `tick()` (60_exceptions.md R172 to R178): what Step.lean calls. -/

namespace Sys2Proof.Machine

/-- The end of a RUNNING tick: the timer step and the outcome Normal, but neither after a fatal error, which has halted the
machine and set its own outcome (R163, R174; D18, log 21). -/
def finishTick (s : State) : State :=
  match s.run with
  | .halted => s
  | _ => (timerStep s).setOutcome .normal

/-- What follows the handler: a next state is finished, a stop is passed on. -/
def afterExec : Result → Result
  | .next t => .next (finishTick t)
  | .fault f => .fault f
  | .refused r => .refused r

/-- R174: decode the fetched opcode in the state after the fetch advance, and execute one handler or raise UnknownOpcode. -/
def runFetched (op : Word) (s : State) : Result :=
  match decodeWord op with
  | .error _ => raiseFatal .unknownOpcode s
  | .ok i => afterExec (exec i s)

/-- `tick()` in each run state (R172, R173, R174). -/
def tick (s : State) : Result :=
  match s.run with
  | .paused => .next (s.setOutcome .paused)
  | .halted => .next (s.setOutcome .halted)
  | .running => runFetched (fetchWord s) (advancePc s)

/-- The word `w` stored where the next fetch reads it, high byte first (R56, R70). -/
def placeWord (w : Word) (s : State) : State :=
  writeByte (s.pc + 1).toNat (lowByte w) (writeByte s.pc.toNat (highByte w) s)

end Sys2Proof.Machine
end

