-- ==== Sys2Proof/Machine/Step.lean ====
section
/-! DEFINITION. The machine's step is one `tick()` (60_exceptions.md R174, R187; log 24), and the host's way to place an
instruction. -/

namespace Sys2Proof.Machine

/-- One step: `tick()`. -/
def step (s : State) : Host.Outcome State Fault Refusal :=
  tick s

/-- `s` with the instruction of the opcode table's word `w` where step fetches next, and running, so that the very next step
runs it (log 28). -/
def State.withFetchWord (s : State) (nbits w : Nat) : State :=
  placeWord (tableWord nbits w) (s.setRun .running)

end Sys2Proof.Machine
end

