-- ==== Sys2Proof/Machine/Assembler.lean ====
section
/-! DEFINITION. The assembler notation (30_encoding.md R85, R86; D27, log 29), on tokens: a name and its operands. It has no
effect on the machine; the bytes it emits are a program image for `construct`. -/

namespace Sys2Proof.Machine

/-- The names of R85's notation. -/
inductive AsmName where
  | cls | ret | jp | call | se | sne | ld | add | or | and | xor | sub | shr | subn | shl | rnd | drw | skp | sknp
  deriving DecidableEq, Repr

/-- The operands of R85's notation: V0 to VF, a number, and the keywords I, DT, ST, K, F, B and [I]. -/
inductive AsmOperand where
  | v (x : Reg)
  | num (value : Nat)
  | i
  | dt
  | st
  | k
  | f
  | b
  | atI
  deriving DecidableEq, Repr

/-- One source line: an instruction, or a data directive (R86). -/
inductive AsmItem where
  | line (name : AsmName) (operands : List AsmOperand)
  | db (value : Nat)
  | dw (value : Nat)
  deriving DecidableEq, Repr

/-- A 12-bit address operand. -/
def asmAddr (value : Nat) : Option Addr :=
  if numberFits 12 value then some (BitVec.ofNat 12 value) else none

/-- An 8-bit byte operand. -/
def asmByte (value : Nat) : Option Byte :=
  if numberFits 8 value then some (BitVec.ofNat 8 value) else none

/-- A 4-bit count operand. -/
def asmCount (value : Nat) : Option Nibble :=
  if numberFits 4 value then some (BitVec.ofNat 4 value) else none

/-- The forms of LD (R85). -/
def assembleLd : List AsmOperand → Option Instr
  | [.v x, .num n] => (asmByte n).map (.ldImm x)
  | [.v x, .v y] => some (.ldReg x y)
  | [.i, .num n] => (asmAddr n).map .ldI
  | [.v x, .dt] => some (.ldVxDt x)
  | [.v x, .k] => some (.ldVxK x)
  | [.dt, .v x] => some (.ldDt x)
  | [.st, .v x] => some (.ldSt x)
  | [.f, .v x] => some (.ldF x)
  | [.b, .v x] => some (.ldB x)
  | [.atI, .v x] => some (.ldMemVx x)
  | [.v x, .atI] => some (.ldVxMem x)
  | _ => none

/-- R85's table: the instruction a line stands for; none where the table has no such line or a number does not fit. -/
def assembleLine (name : AsmName) (operands : List AsmOperand) : Option Instr :=
  match name, operands with
  | .cls, [] => some .cls
  | .ret, [] => some .ret
  | .jp, [.num n] => (asmAddr n).map .jp
  | .jp, [.v x, .num n] => if x = 0 then (asmAddr n).map .jpV0 else none
  | .call, [.num n] => (asmAddr n).map .call
  | .se, [.v x, .num n] => (asmByte n).map (.seImm x)
  | .se, [.v x, .v y] => some (.seReg x y)
  | .sne, [.v x, .num n] => (asmByte n).map (.sneImm x)
  | .sne, [.v x, .v y] => some (.sneReg x y)
  | .ld, ops => assembleLd ops
  | .add, [.v x, .num n] => (asmByte n).map (.addImm x)
  | .add, [.v x, .v y] => some (.addReg x y)
  | .add, [.i, .v x] => some (.addI x)
  | .or, [.v x, .v y] => some (.or x y)
  | .and, [.v x, .v y] => some (.and x y)
  | .xor, [.v x, .v y] => some (.xor x y)
  | .sub, [.v x, .v y] => some (.sub x y)
  | .shr, [.v x] => some (.shr x 0)
  | .shr, [.v x, .v y] => some (.shr x y)
  | .subn, [.v x, .v y] => some (.subn x y)
  | .shl, [.v x] => some (.shl x 0)
  | .shl, [.v x, .v y] => some (.shl x y)
  | .rnd, [.v x, .num n] => (asmByte n).map (.rnd x)
  | .drw, [.v x, .v y, .num n] => (asmCount n).map (.drw x y)
  | .skp, [.v x] => some (.skp x)
  | .sknp, [.v x] => some (.sknp x)
  | _, _ => none

/-- The line R85 writes for an instruction; SHR and SHL with Y = 0 are written with one operand. -/
def disassemble : Instr → AsmName × List AsmOperand
  | .cls => (.cls, [])
  | .ret => (.ret, [])
  | .jp nnn => (.jp, [.num nnn.toNat])
  | .call nnn => (.call, [.num nnn.toNat])
  | .seImm x nn => (.se, [.v x, .num nn.toNat])
  | .sneImm x nn => (.sne, [.v x, .num nn.toNat])
  | .seReg x y => (.se, [.v x, .v y])
  | .ldImm x nn => (.ld, [.v x, .num nn.toNat])
  | .addImm x nn => (.add, [.v x, .num nn.toNat])
  | .ldReg x y => (.ld, [.v x, .v y])
  | .or x y => (.or, [.v x, .v y])
  | .and x y => (.and, [.v x, .v y])
  | .xor x y => (.xor, [.v x, .v y])
  | .addReg x y => (.add, [.v x, .v y])
  | .sub x y => (.sub, [.v x, .v y])
  | .shr x y => (.shr, if y = 0 then [.v x] else [.v x, .v y])
  | .subn x y => (.subn, [.v x, .v y])
  | .shl x y => (.shl, if y = 0 then [.v x] else [.v x, .v y])
  | .sneReg x y => (.sne, [.v x, .v y])
  | .ldI nnn => (.ld, [.i, .num nnn.toNat])
  | .jpV0 nnn => (.jp, [.v 0, .num nnn.toNat])
  | .rnd x nn => (.rnd, [.v x, .num nn.toNat])
  | .drw x y n => (.drw, [.v x, .v y, .num n.toNat])
  | .skp x => (.skp, [.v x])
  | .sknp x => (.sknp, [.v x])
  | .ldVxDt x => (.ld, [.v x, .dt])
  | .ldVxK x => (.ld, [.v x, .k])
  | .ldDt x => (.ld, [.dt, .v x])
  | .ldSt x => (.ld, [.st, .v x])
  | .addI x => (.add, [.i, .v x])
  | .ldF x => (.ld, [.f, .v x])
  | .ldB x => (.ld, [.b, .v x])
  | .ldMemVx x => (.ld, [.atI, .v x])
  | .ldVxMem x => (.ld, [.v x, .atI])

/-- The bytes an item emits: an instruction's two, DB's one, DW's two, high byte first (R86). -/
def assembleItem : AsmItem → Option (List Byte)
  | .line name operands => (assembleLine name operands).map encodeBytes
  | .db value => (asmByte value).map fun b => [b]
  | .dw value =>
    if numberFits 16 value then some [highByte (BitVec.ofNat 16 value), lowByte (BitVec.ofNat 16 value)] else none

/-- A program: its items' bytes in order, the first of them at 0x200 once constructed (R86). None where an item is no line. -/
def assemble : List AsmItem → Option (List Byte)
  | [] => some []
  | item :: items => do
    let bytes ← assembleItem item
    let rest ← assemble items
    return bytes ++ rest

end Sys2Proof.Machine
end

