-- ==== Sys2Proof/Machine/HostOps.lean ====
section
/-! DEFINITION. The host's operations (60_exceptions.md R180 to R187, 70_reset_and_hazards.md R200 to R203). `step` is one
`tick()`; the others are atomic steps the host takes between two ticks (log 24). -/

namespace Sys2Proof.Machine

/-- `construct(program_bytes, rng)` (R200), under the configuration that holds FONT_BASE, DRAW_EDGE and the random source:
ImageTooLarge, or the state of R40 with the image verbatim from 0x200. The font is the construction byte of its addresses
(`initialByte`), so it is there before the program bytes. -/
def construct (c : Config) (image : List Byte) : Except ErrorKind State :=
  if imageFits image.length then .ok (writeBytes loadOffset image (State.fresh c)) else .error .imageTooLarge

/-- `set_key(index, pressed)` (R182); an index outside 0..15 changes nothing (D22). -/
def setKeyOp (index : Nat) (pressed : Bool) (s : State) : State :=
  if h : index < 16 then s.setKey ⟨index, h⟩ pressed else s

/-- `framebuffer()` (R183): the pixels; the state does not change. -/
def framebufferOp (s : State) : Frame :=
  s.fb

/-- `beep_pending()` (R184): BEEP, and the state with BEEP cleared. -/
def beepPendingOp (s : State) : Bool × State :=
  (s.beep, s.setBeep false)

/-- `quit()` (R170). -/
def quitOp (s : State) : State :=
  s.setRun .halted

/-- `pause_toggle()` (R171). -/
def pauseToggleOp (s : State) : State :=
  match s.run with
  | .running => s.setRun .paused
  | .paused => s.setRun .running
  | .halted => s

/-- The operations the host may issue on a constructed machine, in any order (R180, R181). -/
inductive HostOp where
  | tick
  | setKey (index : Nat) (pressed : Bool)
  | framebuffer
  | beepPending
  | quit
  | pauseToggle
  deriving DecidableEq, Repr

/-- What an operation returns (R180). -/
inductive HostReply where
  /-- No value. -/
  | unit
  /-- A TickOutcome (R175). -/
  | outcome (o : TickOutcome)
  /-- The 64 × 32 grid (R183). -/
  | grid (f : Frame)
  /-- A boolean (R184). -/
  | flag (b : Bool)
  deriving DecidableEq, Repr

/-- One operation on a state (R180, R187). -/
def perform (op : HostOp) (s : State) : Result :=
  match op with
  | .tick => step s
  | .setKey index pressed => .next (setKeyOp index pressed s)
  | .framebuffer => .next s
  | .beepPending => .next (beepPendingOp s).2
  | .quit => .next (quitOp s)
  | .pauseToggle => .next (pauseToggleOp s)

/-- What `tick()` returns at `s` (R175): what it leaves in the field `outcome` (log 3). -/
def tickReply (s : State) : HostReply :=
  match step s with
  | .next t => match t.outcome with
    | some o => .outcome o
    | none => .unit
  | _ => .unit

/-- What the operation returns to the host. -/
def reply (op : HostOp) (s : State) : HostReply :=
  match op with
  | .tick => tickReply s
  | .setKey _ _ => .unit
  | .framebuffer => .grid (framebufferOp s)
  | .beepPending => .flag (beepPendingOp s).1
  | .quit => .unit
  | .pauseToggle => .unit

/-- A host script: operations one after the other (R187). -/
def performAll : List HostOp → State → Result
  | [], s => .next s
  | op :: ops, s =>
    match perform op s with
    | .next t => performAll ops t
    | .fault f => .fault f
    | .refused r => .refused r

end Sys2Proof.Machine
end

