-- ==== Sys2Proof/Safety.lean ====
section
/-! DEFINITION. What statements about the machine are said in: the invariant, the states a host can bring about, safe runs, what
an instruction leaves alone, which registers an instruction may write, and which pixels a sprite covers. -/

namespace Sys2Proof.Machine

/-! ### Whole machines -/

/-- The invariant every operation keeps: the memory has its canonical form, and a machine whose last tick returned Halted or
Fatal is halted (60_exceptions.md R163, R164, R173). -/
def State.Inv (s : State) : Prop :=
  Memory.wf s.cfg s.mem ∧
  (s.outcome = some .halted → s.run = .halted) ∧
  ∀ k, s.outcome = some (.fatal k) → s.run = .halted

/-- The states some host can bring about (R180, R187): a constructed machine, and what one operation makes of one. -/
inductive Reachable : State → Prop
  | constructed {c : Config} {image : List Byte} {s : State} (h : construct c image = .ok s) : Reachable s
  | performed {op : HostOp} {s t : State} (hs : Reachable s) (h : perform op s = .next t) : Reachable t

/-- The last tick raised no fatal error (R175). -/
def State.notFatal (s : State) : Prop :=
  ∀ k, s.outcome ≠ some (.fatal k)

/-- `n` ticks from `s` raise no fatal error: what it means for a run to be safe. -/
def SafeFor (n : Nat) (s : State) : Prop :=
  ∀ m ≤ n, ∃ t, Sys2Proof.core.run m s = .next t ∧ State.notFatal t

/-- The next fetch reads the bytes of instruction `i` at PC (R56, R70). -/
def State.fetches (s : State) (i : Instr) : Prop :=
  decodeBytes [readByte s.pc.toNat s, readByte (s.pc + 1).toNat s] = .ok (i, [])

/-! ### What stays as it was -/

/-- Every byte of memory reads as before. -/
def SameMemory (s t : State) : Prop := ∀ a, readByte a t = readByte a s

/-- Every general register that `p` does not allow reads as before. -/
def SameRegsBut (p : Reg → Prop) (s t : State) : Prop := ∀ y, ¬ p y → reg y t = reg y s

/-- The call stack and its pointer. -/
def SameStack (s t : State) : Prop := t.stack = s.stack ∧ t.sp = s.sp

/-- Both timers. -/
def SameTimers (s t : State) : Prop := t.dt = s.dt ∧ t.st = s.st

/-- The host's side: framebuffer, key latch and beep latch. -/
def SameDevices (s t : State) : Prop := t.fb = s.fb ∧ t.key = s.key ∧ t.beep = s.beep

/-- The run state, and the model's own fields but for the random source's position. -/
def SameControl (s t : State) : Prop := t.run = s.run ∧ t.cfg = s.cfg ∧ t.outcome = s.outcome

/-! ### Registers an instruction may write -/

/-- 10_state.md R24: the general registers an instruction writes. -/
def writesReg : Instr → Reg → Prop
  | .ldImm x _, y => y = x
  | .addImm x _, y => y = x
  | .ldReg x _, y => y = x
  | .or x _, y => y = x
  | .and x _, y => y = x
  | .xor x _, y => y = x
  | .rnd x _, y => y = x
  | .ldVxDt x, y => y = x
  | .ldVxK x, y => y = x
  | .addReg x _, y => y = x ∨ y = 15
  | .sub x _, y => y = x ∨ y = 15
  | .shr x _, y => y = x ∨ y = 15
  | .subn x _, y => y = x ∨ y = 15
  | .shl x _, y => y = x ∨ y = 15
  | .drw _ _ _, y => y = 15
  | .ldVxMem x, y => y ≤ x
  | .cls, _ => False
  | .ret, _ => False
  | .jp _, _ => False
  | .call _, _ => False
  | .seImm _ _, _ => False
  | .sneImm _ _, _ => False
  | .seReg _ _, _ => False
  | .sneReg _ _, _ => False
  | .ldI _, _ => False
  | .jpV0 _, _ => False
  | .skp _, _ => False
  | .sknp _, _ => False
  | .ldDt _, _ => False
  | .ldSt _, _ => False
  | .addI _, _ => False
  | .ldF _, _ => False
  | .ldB _, _ => False
  | .ldMemVx _, _ => False

/-! ### Pixels a sprite covers -/

/-- R144: whether a target `(x, y)` lands on the grid's pixel `(px, py)`. -/
def landsOn (edge : DrawEdge) (x y : Nat) (px : Fin 64) (py : Fin 32) : Prop :=
  match edge with
  | .clip => x = px.val ∧ y = py.val
  | .wrap => x % 64 = px.val ∧ y % 32 = py.val

/-- R141, R142, R144: some set bit of the sprite that DRW x, y, n draws in state `s` lands on the pixel `(px, py)`. -/
def spriteCovers (s : State) (x y : Reg) (n : Nibble) (px : Fin 64) (py : Fin 32) : Prop :=
  ∃ r col, r < n.toNat ∧ col < 8 ∧ (readByte (s.i.toNat + r) s).getLsbD (7 - col) = true ∧
    landsOn s.cfg.drawEdge ((reg x s).toNat % 64 + col) ((reg y s).toNat % 32 + r) px py

end Sys2Proof.Machine
end

