-- ==== Sys2Proof/Certificates/Slice0/Obligations.lean ====
section
/-! DEFINITION. The statements for the provers. `exec i s` runs `i` with PC already past it; a result is given as a next state
`t` that equals `s` but for the fields named, and those fields as numbers, so that each result statement also says what the
instruction leaves alone and that it completes. `15 : Reg` is VF (D1, log 5). -/

open Sys2Proof Sys2Proof.Machine

/-! ### Encoding -/

/-- One word of each family, written out from 30_encoding.md R76 (bit patterns: D2, log 6), decodes to its instruction. -/
def Obligations.FamilyWordsDecode : Prop :=
  decodeWord 0x00E0#16 = .ok .cls ∧ decodeWord 0x1234#16 = .ok (.jp 0x234#12) ∧
  decodeWord 0x3342#16 = .ok (.seImm 3 0x42#8) ∧ decodeWord 0x8AB4#16 = .ok (.addReg 10 11) ∧
  decodeWord 0xC30F#16 = .ok (.rnd 3 0x0F#8) ∧ decodeWord 0xA300#16 = .ok (.ldI 0x300#12) ∧
  decodeWord 0xF255#16 = .ok (.ldMemVx 2) ∧ decodeWord 0xD12F#16 = .ok (.drw 1 2 0xF#4) ∧
  decodeWord 0xE29E#16 = .ok (.skp 2) ∧ decodeWord 0xF318#16 = .ok (.ldSt 3) ∧
  decodeWord 0x0123#16 = .error (.unknownOpcode 0x0123#16)

/-- R72: the fields are the slices of the opcode, and they overlap as slices of one word do. -/
def Obligations.FieldsAreTheSlicesOfTheWord : Prop :=
  ∀ w : Word,
    (fields w).cls.toNat = w.toNat / 4096 ∧ (fields w).x.val = w.toNat / 256 % 16 ∧
    (fields w).y.val = w.toNat / 16 % 16 ∧ (fields w).n.toNat = w.toNat % 16 ∧
    (fields w).nn.toNat = w.toNat % 256 ∧ (fields w).nnn.toNat = w.toNat % 4096 ∧ (fields w).wellFormed = true

/-- Every instruction, with every operand its encoding admits, is what its word and its two bytes decode to. -/
def Obligations.DecodeOfEncodeIsTheInstruction : Prop :=
  ∀ (i : Instr) (rest : List Byte),
    decodeWord (encode i) = .ok i ∧ decodeBytes (encodeBytes i ++ rest) = .ok (i, rest)

/-- R84: a word that decodes is the word its instruction encodes to, so no two words give one instruction. -/
def Obligations.EncodeOfDecodeIsTheWord : Prop :=
  ∀ (w : Word) (i : Instr), decodeWord w = .ok i → encode i = w

/-- R84: a word that decodes belongs to its instruction's table row, and a word that belongs to a row decodes to an
instruction of that row and of no other. -/
def Obligations.DecodeFollowsTheOpcodeTable : Prop :=
  (∀ (w : Word) (i : Instr), decodeWord w = .ok i → w &&& (tableRow i).2 = (tableRow i).1) ∧
  (∀ (w : Word) (i : Instr), w &&& (tableRow i).2 = (tableRow i).1 →
    ∃ j, decodeWord w = .ok j ∧ tableRow j = tableRow i)

/-- R82's table (the set of unknown words is D3, log 7): exactly these words are unknown. -/
def Obligations.UnknownWordsAreTheListedOnes : Prop :=
  ∀ w : Word, decodeWord w = .error (.unknownOpcode w) ↔
    (w.toNat / 4096 = 0x0 ∧ w.toNat ≠ 0x00E0 ∧ w.toNat ≠ 0x00EE) ∨
    (w.toNat / 4096 = 0x5 ∧ w.toNat % 16 ≠ 0) ∨
    (w.toNat / 4096 = 0x8 ∧ 8 ≤ w.toNat % 16 ∧ w.toNat % 16 ≠ 0xE) ∨
    (w.toNat / 4096 = 0x9 ∧ w.toNat % 16 ≠ 0) ∨
    (w.toNat / 4096 = 0xE ∧ w.toNat % 256 ∉ [0x9E, 0xA1]) ∨
    (w.toNat / 4096 = 0xF ∧ w.toNat % 256 ∉ [0x07, 0x0A, 0x15, 0x18, 0x1E, 0x29, 0x33, 0x55, 0x65])

/-- R85 (D27, log 29): the line written for an instruction assembles to that instruction. -/
def Obligations.DisassembledLineAssembles : Prop :=
  ∀ i : Instr, assembleLine (disassemble i).1 (disassemble i).2 = some i

/-! ### One tick -/

/-- R70, R174: when the bytes at PC decode to `i`, a RUNNING tick runs `i` with PC advanced by 2, and then, unless `i` raised a
fatal error, steps the timers once and returns Normal. Byte addresses are reduced modulo 4096 by `readByte` (D4, log 8); that no
timer step follows a fatal error is D18 (log 21). -/
def Obligations.StepRunsTheDecodedInstruction : Prop :=
  ∀ (s t : State) (i : Instr), s.run = .running → s.fetches i → exec i { s with pc := s.pc + 2 } = .next t →
    (t.run = .running ∨ t.run = .halted) ∧
    (t.run = .running → step s = .next { t with
      dt := if t.dt = 0 then 0 else t.dt - 1
      st := if t.st = 0 then 0 else t.st - 1
      beep := t.beep || t.st == 1
      outcome := some .normal }) ∧
    (t.run = .halted → step s = .next t)

/-- R82, R163 (D3, D18; log 7, 21): when the bytes at PC are no instruction, the tick halts the machine with UnknownOpcode; only
PC has moved, and no timer. -/
def Obligations.UnknownWordHaltsTheMachine : Prop :=
  ∀ s : State, s.run = .running → (∀ i, ¬ s.fetches i) →
    step s = .next { s with pc := s.pc + 2, run := .halted, outcome := some (.fatal .unknownOpcode) }

/-- R172, R173 (D22, log 24): a tick in PAUSED or HALTED reports so and changes nothing. -/
def Obligations.IdleTicksChangeNothing : Prop :=
  ∀ s : State,
    (s.run = .paused → step s = .next { s with outcome := some .paused }) ∧
    (s.run = .halted → step s = .next { s with outcome := some .halted })

/-- R176: once per completed RUNNING tick, after the instruction, DT is decremented if it is not 0; an LD_DT of the same tick
has written it before. -/
def Obligations.DelayTimerCountsDownOncePerTick : Prop :=
  ∀ (s t : State) (i : Instr), s.run = .running → s.fetches i → step s = .next t → t.outcome = some .normal →
    (∀ x, i = .ldDt x → t.dt.toNat = (reg x s).toNat - 1) ∧
    ((∀ x, i ≠ .ldDt x) → t.dt.toNat = s.dt.toNat - 1)

/-- R177 (the latch is D20, log 23): the same of ST, and BEEP is raised exactly if ST was 1 before its decrement. -/
def Obligations.SoundTimerBeepsWhenItReachesZero : Prop :=
  ∀ (s t : State) (i : Instr), s.run = .running → s.fetches i → step s = .next t → t.outcome = some .normal →
    (∀ x, i = .ldSt x → t.st.toNat = (reg x s).toNat - 1 ∧ (t.beep = true ↔ s.beep = true ∨ (reg x s).toNat = 1)) ∧
    ((∀ x, i ≠ .ldSt x) → t.st.toNat = s.st.toNat - 1 ∧ (t.beep = true ↔ s.beep = true ∨ s.st.toNat = 1))

/-- R153, R192: with no key held, a tick that fetches LD_VX_K ends with PC back at it; only the timers have moved. -/
def Obligations.WaitingForAKeyRepeatsTheInstruction : Prop :=
  ∀ (s : State) (x : Reg), s.run = .running → s.fetches (.ldVxK x) → (∀ k : Fin 16, s.key[k] = false) →
    ∃ t, step s = .next t ∧
      t = { s with dt := t.dt, st := t.st, beep := t.beep, outcome := some .normal } ∧
      t.dt.toNat = s.dt.toNat - 1 ∧ t.st.toNat = s.st.toNat - 1

/-! ### Control transfer (40_control_flow.md) -/

/-- R101. -/
def Obligations.JumpLoadsTheTarget : Prop :=
  ∀ (nnn : Addr) (s : State), (encode (.jp nnn)).toNat = 0x1000 + nnn.toNat ∧
    ∃ t, exec (.jp nnn) s = .next t ∧ t = { s with pc := t.pc } ∧ t.pc.toNat = nnn.toNat

/-- R107: PC keeps the whole sum, up to 0x10FE; the next fetch reduces it modulo 4096 (D4, log 8). -/
def Obligations.JumpWithOffsetAddsV0 : Prop :=
  ∀ (nnn : Addr) (s : State),
    ∃ t, exec (.jpV0 nnn) s = .next t ∧ t = { s with pc := t.pc } ∧ t.pc.toNat = nnn.toNat + (reg 0 s).toNat

/-- R102: below 16 entries CALL pushes the advanced PC and jumps; at 16 it raises StackOverflow and writes nothing else. -/
def Obligations.CallPushesOrOverflows : Prop :=
  ∀ (nnn : Addr) (s : State), (encode (.call nnn)).toNat = 0x2000 + nnn.toNat ∧
    (s.sp.val < 16 → ∃ t, exec (.call nnn) s = .next t ∧ t = { s with pc := t.pc, stack := t.stack, sp := t.sp } ∧
      t.pc.toNat = nnn.toNat ∧ t.sp.val = s.sp.val + 1 ∧
      ∀ k : Fin 16, t.stack[k] = if k.val = s.sp.val then s.pc else s.stack[k]) ∧
    (s.sp.val = 16 → exec (.call nnn) s = .next { s with run := .halted, outcome := some (.fatal .stackOverflow) })

/-- R100: above 0 entries RET pops the top one into PC and leaves the entries as they are; at 0 it raises StackUnderflow and
writes nothing else. -/
def Obligations.ReturnPopsOrUnderflows : Prop :=
  ∀ s : State, encode .ret = 0x00EE#16 ∧
    (0 < s.sp.val → ∃ t, exec .ret s = .next t ∧ t = { s with pc := t.pc, sp := t.sp } ∧ t.sp.val + 1 = s.sp.val ∧
      ∀ k : Fin 16, k.val + 1 = s.sp.val → t.pc = s.stack[k]) ∧
    (s.sp.val = 0 → exec .ret s = .next { s with run := .halted, outcome := some (.fatal .stackUnderflow) })

/-- R103, R104: the skips that compare a register with an immediate. -/
def Obligations.ImmediateSkipsTestTheRegister : Prop :=
  ∀ (x : Reg) (nn : Byte) (s : State),
    (encode (.seImm x nn)).toNat = 0x3000 + 256 * x.val + nn.toNat ∧
    (encode (.sneImm x nn)).toNat = 0x4000 + 256 * x.val + nn.toNat ∧
    (∃ t, exec (.seImm x nn) s = .next t ∧ t = { s with pc := t.pc } ∧
      t.pc.toNat = (s.pc.toNat + if (reg x s).toNat = nn.toNat then 2 else 0) % 65536) ∧
    (∃ t, exec (.sneImm x nn) s = .next t ∧ t = { s with pc := t.pc } ∧
      t.pc.toNat = (s.pc.toNat + if (reg x s).toNat = nn.toNat then 0 else 2) % 65536)

/-- The effects of R105 and R106: the skips that compare two registers. -/
def Obligations.RegisterSkipsCompareTheRegisters : Prop :=
  ∀ (x y : Reg) (s : State),
    (∃ t, exec (.seReg x y) s = .next t ∧ t = { s with pc := t.pc } ∧
      t.pc.toNat = (s.pc.toNat + if (reg x s).toNat = (reg y s).toNat then 2 else 0) % 65536) ∧
    (∃ t, exec (.sneReg x y) s = .next t ∧ t = { s with pc := t.pc } ∧
      t.pc.toNat = (s.pc.toNat + if (reg x s).toNat = (reg y s).toNat then 0 else 2) % 65536)

/-- R100, R102: a RET after a CALL, whatever PC has become in between, resumes after the CALL with the stack pointer as it
was. -/
def Obligations.ReturnResumesAfterTheCall : Prop :=
  ∀ (nnn : Addr) (s t : State) (pc : Word), s.sp.val < 16 → exec (.call nnn) s = .next t →
    ∃ u, exec .ret { t with pc := pc } = .next u ∧ u.pc = s.pc ∧ u.sp = s.sp ∧ u.run = s.run ∧
      ∀ k : Fin 16, k.val < s.sp.val → u.stack[k] = s.stack[k]

/-! ### Registers and arithmetic (41_alu.md) -/

/-- R110, R112. -/
def Obligations.LoadsSetTheRegister : Prop :=
  ∀ (x y : Reg) (nn : Byte) (s : State),
    (encode (.ldImm x nn)).toNat = 0x6000 + 256 * x.val + nn.toNat ∧
    (encode (.ldReg x y)).toNat = 0x8000 + 256 * x.val + 16 * y.val ∧
    (∃ t, exec (.ldImm x nn) s = .next t ∧ t = { s with v := t.v } ∧ reg x t = nn ∧
      ∀ z, z ≠ x → reg z t = reg z s) ∧
    (∃ t, exec (.ldReg x y) s = .next t ∧ t = { s with v := t.v } ∧ reg x t = reg y s ∧
      ∀ z, z ≠ x → reg z t = reg z s)

/-- R111: modulo 256 and no flag, VF unchanged unless it is the destination. -/
def Obligations.AddImmediateWrapsWithoutFlag : Prop :=
  ∀ (x : Reg) (nn : Byte) (s : State),
    (encode (.addImm x nn)).toNat = 0x7000 + 256 * x.val + nn.toNat ∧
    ∃ t, exec (.addImm x nn) s = .next t ∧ t = { s with v := t.v } ∧
      (reg x t).toNat = ((reg x s).toNat + nn.toNat) % 256 ∧ ∀ z, z ≠ x → reg z t = reg z s

/-- R113, R114, R115: bit by bit; VF is unchanged unless it is the destination (D15, log 18). -/
def Obligations.LogicWorksBitByBit : Prop :=
  ∀ (x y : Reg) (s : State),
    (∃ t, exec (.or x y) s = .next t ∧ t = { s with v := t.v } ∧ (∀ z, z ≠ x → reg z t = reg z s) ∧
      ∀ k, (reg x t).getLsbD k = ((reg x s).getLsbD k || (reg y s).getLsbD k)) ∧
    (∃ t, exec (.and x y) s = .next t ∧ t = { s with v := t.v } ∧ (∀ z, z ≠ x → reg z t = reg z s) ∧
      ∀ k, (reg x t).getLsbD k = ((reg x s).getLsbD k && (reg y s).getLsbD k)) ∧
    (∃ t, exec (.xor x y) s = .next t ∧ t = { s with v := t.v } ∧ (∀ z, z ≠ x → reg z t = reg z s) ∧
      ∀ k, (reg x t).getLsbD k = ((reg x s).getLsbD k ^^ (reg y s).getLsbD k))

/-- R117 and R116: the carry is in VF, for x = 15 too (D1, D13; log 5, 16). -/
def Obligations.AddRegistersSetsTheCarry : Prop :=
  ∀ (x y : Reg) (s : State), ∃ t, exec (.addReg x y) s = .next t ∧ t = { s with v := t.v } ∧
    (reg 15 t).toNat = (if (reg x s).toNat + (reg y s).toNat > 255 then 1 else 0) ∧
    (x ≠ 15 → (reg x t).toNat = ((reg x s).toNat + (reg y s).toNat) % 256) ∧
    ∀ z, z ≠ x → z ≠ 15 → reg z t = reg z s

/-- R118, R120 and R116: VF is the strict no-borrow flag, 0 for equal operands (C11), for x = 15 too (D1, D13; log 5, 16). -/
def Obligations.SubtractionsSetStrictNoBorrow : Prop :=
  ∀ (x y : Reg) (s : State),
    (∃ t, exec (.sub x y) s = .next t ∧ t = { s with v := t.v } ∧
      (reg 15 t).toNat = (if (reg x s).toNat > (reg y s).toNat then 1 else 0) ∧
      (x ≠ 15 → (reg x t).toNat = ((reg x s).toNat + 256 - (reg y s).toNat) % 256) ∧
      ∀ z, z ≠ x → z ≠ 15 → reg z t = reg z s) ∧
    (∃ t, exec (.subn x y) s = .next t ∧ t = { s with v := t.v } ∧
      (reg 15 t).toNat = (if (reg y s).toNat > (reg x s).toNat then 1 else 0) ∧
      (x ≠ 15 → (reg x t).toNat = ((reg y s).toNat + 256 - (reg x s).toNat) % 256) ∧
      ∀ z, z ≠ x → z ≠ 15 → reg z t = reg z s)

/-- R119, R121 and R116: V[x] is shifted in place whatever Y is, and VF is the bit shifted out, for x = 15 too (D1, D13; log 5,
16). -/
def Obligations.ShiftsMoveTheBitIntoTheFlag : Prop :=
  ∀ (x y : Reg) (s : State),
    (∃ t, exec (.shr x y) s = .next t ∧ t = { s with v := t.v } ∧ (reg 15 t).toNat = (reg x s).toNat % 2 ∧
      (x ≠ 15 → (reg x t).toNat = (reg x s).toNat / 2) ∧ ∀ z, z ≠ x → z ≠ 15 → reg z t = reg z s) ∧
    (∃ t, exec (.shl x y) s = .next t ∧ t = { s with v := t.v } ∧ (reg 15 t).toNat = (reg x s).toNat / 128 ∧
      (x ≠ 15 → (reg x t).toNat = 2 * (reg x s).toNat % 256) ∧ ∀ z, z ≠ x → z ≠ 15 → reg z t = reg z s)

/-- R122 (D21, log 2): the draw masked, exactly one byte of the source consumed; bits outside the mask are 0 for every draw. -/
def Obligations.RandomIsTheMaskedDraw : Prop :=
  ∀ (x : Reg) (nn : Byte) (s : State), ∃ t, exec (.rnd x nn) s = .next t ∧
    t = { s with v := t.v, draws := s.draws + 1 } ∧
    (∀ k, (reg x t).getLsbD k = ((Config.randomByte s.cfg.rng s.draws).getLsbD k && nn.getLsbD k)) ∧
    reg x t &&& ~~~nn = 0 ∧ ∀ z, z ≠ x → reg z t = reg z s

/-! ### Index register and memory (42_index_memory.md) -/

/-- R130. -/
def Obligations.SetIndexLoadsTheAddress : Prop :=
  ∀ (nnn : Addr) (s : State), (encode (.ldI nnn)).toNat = 0xA000 + nnn.toNat ∧
    ∃ t, exec (.ldI nnn) s = .next t ∧ t = { s with i := t.i } ∧ t.i.toNat = nnn.toNat

/-- R131 (D6, log 10): ADD_I wraps modulo 2^16 with VF unchanged. R133 (D9, D17; log 1, 20): for every FONT_BASE, LD_F counts
five bytes a glyph and the whole of V[x]. -/
def Obligations.IndexArithmeticKeeps16Bits : Prop :=
  ∀ (x : Reg) (s : State),
    (∃ t, exec (.addI x) s = .next t ∧ t = { s with i := t.i } ∧
      t.i.toNat = (s.i.toNat + (reg x s).toNat) % 65536) ∧
    (∃ t, exec (.ldF x) s = .next t ∧ t = { s with i := t.i } ∧
      t.i.toNat = s.cfg.fontBase.val + 5 * (reg x s).toNat)

/-- R134 (D4, log 8): the digits at I, I+1, I+2, each reduced modulo 4096, and no other byte. -/
def Obligations.DecimalDigitsAreStored : Prop :=
  ∀ (x : Reg) (s : State), Memory.wf s.cfg s.mem → ∃ t, exec (.ldB x) s = .next t ∧ t = { s with mem := t.mem } ∧
    (readByte s.i.toNat t).toNat = (reg x s).toNat / 100 ∧
    (readByte (s.i.toNat + 1) t).toNat = (reg x s).toNat / 10 % 10 ∧
    (readByte (s.i.toNat + 2) t).toNat = (reg x s).toNat % 10 ∧
    ∀ a, (∀ k < 3, a % 4096 ≠ (s.i.toNat + k) % 4096) → readByte a t = readByte a s

/-- R135 (D4, D16; log 8, 19): V[0] to V[x] at I, I+1, …, I+x, and no other byte; I is unchanged. -/
def Obligations.RegistersAreStoredFromI : Prop :=
  ∀ (x : Reg) (s : State), Memory.wf s.cfg s.mem → ∃ t, exec (.ldMemVx x) s = .next t ∧ t = { s with mem := t.mem } ∧
    (∀ k : Reg, k ≤ x → readByte (s.i.toNat + k.val) t = reg k s) ∧
    ∀ a, (∀ k ≤ x.val, a % 4096 ≠ (s.i.toNat + k) % 4096) → readByte a t = readByte a s

/-- R136 (D4, D16; log 8, 19): V[0] to V[x] from I, I+1, …, I+x; the others and I are unchanged. -/
def Obligations.RegistersAreLoadedFromI : Prop :=
  ∀ (x : Reg) (s : State), ∃ t, exec (.ldVxMem x) s = .next t ∧ t = { s with v := t.v } ∧
    (∀ k : Reg, k ≤ x → reg k t = readByte (s.i.toNat + k.val) s) ∧ ∀ k : Reg, x < k → reg k t = reg k s

/-- R137: storing V0..Vx and loading them into a zeroed register file gives them back. -/
def Obligations.StoreThenLoadRegistersRoundTrip : Prop :=
  ∀ (x : Reg) (s t : State), Memory.wf s.cfg s.mem → exec (.ldMemVx x) s = .next t →
    ∃ u, exec (.ldVxMem x) { t with v := Vector.replicate 16 0 } = .next u ∧
      (∀ k : Reg, k ≤ x → reg k u = reg k s) ∧ ∀ k : Reg, x < k → reg k u = 0

/-- R64, R208 (D25, log 27): bytes stored where PC points are what the next fetch reads. -/
def Obligations.NextFetchReadsTheStoredBytes : Prop :=
  ∀ (x : Reg) (s t : State), Memory.wf s.cfg s.mem → 1 ≤ x.val → s.i.toNat % 4096 = s.pc.toNat % 4096 →
    exec (.ldMemVx x) s = .next t → (fetchWord t).toNat = (reg 0 s).toNat * 256 + (reg 1 s).toNat

/-- Memories in the canonical form of this model (log 12) that read alike are the same data. -/
def Obligations.MemoriesThatReadAlikeAreEqual : Prop :=
  ∀ (c : Config) (m m' : Memory), Memory.wf c m → Memory.wf c m' →
    (∀ a < 4096, Memory.read c m a = Memory.read c m' a) → m = m'

/-! ### Display (43_display.md) -/

/-- R140. -/
def Obligations.ClearDisplayClearsEveryPixel : Prop :=
  ∀ s : State, encode .cls = 0x00E0#16 ∧ ∃ t, exec .cls s = .next t ∧ t = { s with fb := t.fb } ∧
    ∀ px py, pixel t.fb px py = false

/-- R141 to R146 (D1, D11, D12, D14; log 5, 14, 15, 17), for CLIP and for WRAP: exactly the covered pixels are inverted, and VF
is 1 if one of them was set, else 0. -/
def Obligations.DrawInvertsTheCoveredPixels : Prop :=
  ∀ (x y : Reg) (n : Nibble) (s : State), ∃ t, exec (.drw x y n) s = .next t ∧ t = { s with v := t.v, fb := t.fb } ∧
    (∀ px py, spriteCovers s x y n px py → pixel t.fb px py = !pixel s.fb px py) ∧
    (∀ px py, ¬ spriteCovers s x y n px py → pixel t.fb px py = pixel s.fb px py) ∧
    (reg 15 t).toNat ≤ 1 ∧
    ((reg 15 t).toNat = 1 ↔ ∃ px py, spriteCovers s x y n px py ∧ pixel s.fb px py = true) ∧
    ∀ z, z ≠ 15 → reg z t = reg z s

/-- R145 (see log 33 on R146's wording): a sprite drawn twice at one place leaves the framebuffer as it was, and the second
draw collides exactly if a covered pixel was clear before the first. -/
def Obligations.DrawingTwiceRestoresTheFrame : Prop :=
  ∀ (x y : Reg) (n : Nibble) (s t u : State), x ≠ 15 → y ≠ 15 → exec (.drw x y n) s = .next t →
    exec (.drw x y n) t = .next u →
    u.fb = s.fb ∧ ((reg 15 u).toNat = 1 ↔ ∃ px py, spriteCovers s x y n px py ∧ pixel s.fb px py = false)

/-! ### Keys and timers (44_timers_keys.md) -/

/-- R150, R151 (D17, log 20): the key skips test slot V[x] mod 16 and do not touch the latch. -/
def Obligations.KeySkipsTestTheLatch : Prop :=
  ∀ (x : Reg) (s : State) (k : Fin 16), k.val = (reg x s).toNat % 16 →
    (∃ t, exec (.skp x) s = .next t ∧ t = { s with pc := t.pc } ∧
      t.pc.toNat = (s.pc.toNat + if s.key[k] = true then 2 else 0) % 65536) ∧
    (∃ t, exec (.sknp x) s = .next t ∧ t = { s with pc := t.pc } ∧
      t.pc.toNat = (s.pc.toNat + if s.key[k] = true then 0 else 2) % 65536)

/-- R153 (D30, log 30): with no key held PC goes back by 2 and nothing else changes; else V[x] is the lowest held key. -/
def Obligations.WaitForKeyTakesTheLowestKey : Prop :=
  ∀ (x : Reg) (s : State),
    ((∀ k : Fin 16, s.key[k] = false) → ∃ t, exec (.ldVxK x) s = .next t ∧ t = { s with pc := t.pc } ∧
      t.pc.toNat = (s.pc.toNat + 65534) % 65536) ∧
    (∀ k : Fin 16, s.key[k] = true → (∀ j : Fin 16, j < k → s.key[j] = false) →
      ∃ t, exec (.ldVxK x) s = .next t ∧ t = { s with v := t.v } ∧ (reg x t).toNat = k.val ∧
        ∀ z, z ≠ x → reg z t = reg z s)

/-- R152, R154, R155 (the effects at execute time): the delay timer is read and both timers are written. -/
def Obligations.TimersAreReadAndWritten : Prop :=
  ∀ (x : Reg) (s : State),
    (∃ t, exec (.ldVxDt x) s = .next t ∧ t = { s with v := t.v } ∧ reg x t = s.dt ∧ ∀ z, z ≠ x → reg z t = reg z s) ∧
    exec (.ldDt x) s = .next { s with dt := reg x s } ∧
    exec (.ldSt x) s = .next { s with st := reg x s }

/-! ### Frames -/

/-- Frame of the instructions that only write general registers. -/
def Obligations.RegisterInstructionsLeaveTheRest : Prop :=
  ∀ (x y : Reg) (nn : Byte) (s t : State) (i : Instr),
    i ∈ [Instr.ldImm x nn, .addImm x nn, .ldReg x y, .or x y, .and x y, .xor x y, .addReg x y, .sub x y, .shr x y,
      .subn x y, .shl x y, .rnd x nn, .ldVxDt x, .ldVxMem x] →
    exec i s = .next t →
    SameRegsBut (writesReg i) s t ∧ SameMemory s t ∧ t.i = s.i ∧ t.pc = s.pc ∧ SameStack s t ∧ SameTimers s t ∧
    SameDevices s t ∧ SameControl s t ∧ (i ≠ .rnd x nn → t.draws = s.draws)

/-- Frame of the control transfers and skips: PC, and the call stack for CALL and RET. A CALL or RET that raises a fatal error
halts the machine (R163) and changes nothing else. -/
def Obligations.ControlTransfersLeaveTheRest : Prop :=
  ∀ (x y : Reg) (nn : Byte) (nnn : Addr) (s t : State) (i : Instr),
    i ∈ [Instr.ret, .jp nnn, .call nnn, .seImm x nn, .sneImm x nn, .seReg x y, .sneReg x y, .jpV0 nnn, .skp x, .sknp x] →
    exec i s = .next t →
    SameRegsBut (fun _ => False) s t ∧ SameMemory s t ∧ t.i = s.i ∧ SameTimers s t ∧ SameDevices s t ∧
    t.cfg = s.cfg ∧ t.draws = s.draws ∧ (t.run = s.run ∨ t.run = .halted) ∧
    (t.run ≠ .halted → t.outcome = s.outcome) ∧ (i ≠ .ret → i ≠ .call nnn → SameStack s t ∧ SameControl s t)

/-- Frame of the instructions that store to memory: every byte outside the stored ones, which start at I, and everything that
is not memory. -/
def Obligations.StoresLeaveOtherBytes : Prop :=
  ∀ (x : Reg) (s t : State) (i : Instr) (len : Nat),
    (i = .ldB x ∧ len = 3) ∨ (i = .ldMemVx x ∧ len = x.val + 1) → exec i s = .next t →
    (∀ a, (∀ k < len, a % 4096 ≠ (indexBase s + k) % 4096) → readByte a t = readByte a s) ∧
    SameRegsBut (fun _ => False) s t ∧ t.i = s.i ∧ t.pc = s.pc ∧ SameStack s t ∧ SameTimers s t ∧ SameDevices s t ∧
    SameControl s t ∧ t.draws = s.draws

/-- Frame of the index, timer, key-wait and display instructions. -/
def Obligations.DeviceInstructionsLeaveTheRest : Prop :=
  ∀ (x y : Reg) (n : Nibble) (nnn : Addr) (s t : State) (i : Instr),
    i ∈ [Instr.ldI nnn, .addI x, .ldF x, .ldDt x, .ldSt x, .ldVxK x, .cls, .drw x y n] → exec i s = .next t →
    SameRegsBut (writesReg i) s t ∧ SameMemory s t ∧ SameStack s t ∧ t.key = s.key ∧ t.beep = s.beep ∧
    SameControl s t ∧ t.draws = s.draws ∧
    (i ∈ [Instr.ldDt x, .ldSt x, .ldVxK x, .cls, .drw x y n] → t.i = s.i) ∧
    (i ≠ .ldVxK x → t.pc = s.pc) ∧ (i ≠ .ldDt x → t.dt = s.dt) ∧ (i ≠ .ldSt x → t.st = s.st) ∧
    (i ∈ [Instr.ldI nnn, .addI x, .ldF x, .ldDt x, .ldSt x, .ldVxK x] → t.fb = s.fb)

/-- Only RND reads the random source (R193): without it, the position of the source neither matters nor moves. -/
def Obligations.OnlyRndUsesTheRandomSource : Prop :=
  ∀ (i : Instr) (s t : State) (n : Nat), (∀ x nn, i ≠ .rnd x nn) → exec i s = .next t →
    exec i { s with draws := n } = .next { t with draws := n }

/-! ### The host's operations (60_exceptions.md, 70_reset_and_hazards.md) -/

/-- R182 (D22, log 24). -/
def Obligations.SetKeyWritesOneSlot : Prop :=
  ∀ (index : Nat) (pressed : Bool) (s : State), ∃ t, perform (.setKey index pressed) s = .next t ∧
    t = { s with key := t.key } ∧
    ∀ k : Fin 16, t.key[k] = if k.val = index then pressed else s.key[k]

/-- R170, R171: `quit` and `pause_toggle` change the run state only. R183, R184: the framebuffer is returned and nothing changes;
the beep is returned and cleared, so that a second read is false. -/
def Obligations.HostOperationsChangeOnlyTheirField : Prop :=
  ∀ s : State,
    perform .quit s = .next { s with run := .halted } ∧
    (s.run = .running → perform .pauseToggle s = .next { s with run := .paused }) ∧
    (s.run = .paused → perform .pauseToggle s = .next { s with run := .running }) ∧
    (s.run = .halted → perform .pauseToggle s = .next s) ∧
    perform .framebuffer s = .next s ∧ reply .framebuffer s = .grid s.fb ∧
    perform .beepPending s = .next { s with beep := false } ∧ reply .beepPending s = .flag s.beep ∧
    reply .beepPending { s with beep := false } = .flag false

/-- R200, R203, R40 (values: D7, D8, D20; font: D9, D10; log 1, 11, 12, 13, 23): an image of at most 3584 bytes makes a machine
that holds the font, the image and zeros; a longer one makes none. -/
def Obligations.ConstructLoadsTheImage : Prop :=
  ∀ (c : Config) (image : List Byte),
    (3584 < image.length → construct c image = .error .imageTooLarge) ∧
    (image.length ≤ 3584 → ∃ s, construct c image = .ok s ∧ s.cfg = c ∧
      (∀ (k : Nat) (h : k < image.length), readByte (0x200 + k) s = image[k]) ∧
      (∀ k < 80, readByte (c.fontBase.val + k) s = fontTable.getD k 0) ∧
      (∀ a < 4096, (a < c.fontBase.val ∨ c.fontBase.val + 80 ≤ a) → (a < 0x200 ∨ 0x200 + image.length ≤ a) →
        readByte a s = 0) ∧
      (∀ x, reg x s = 0) ∧ s.i = 0 ∧ s.pc = 0x200#16 ∧ (∀ k : Fin 16, s.stack[k] = 0) ∧ s.sp = 0 ∧ s.dt = 0 ∧ s.st = 0 ∧
      (∀ px py, pixel s.fb px py = false) ∧ (∀ k : Fin 16, s.key[k] = false) ∧ s.beep = false ∧ s.run = .running)

/-- R203, R83 (D26, log 28): reset is the machine constructed from the empty image with the spec's default parameters, and its
first tick halts it with UnknownOpcode. -/
def Obligations.ResetIsTheEmptyImageAndHalts : Prop :=
  construct ⟨0x050, .clip, 0⟩ [] = .ok State.reset ∧
  step State.reset = .next { State.reset with
    pc := 0x202#16, run := .halted, outcome := some (.fatal .unknownOpcode) }

/-! ### Invariants and whole-machine rules -/

/-- The invariant of Safety.lean holds at reset. -/
def Obligations.ResetMeetsTheInvariant : Prop :=
  State.reset.Inv

/-- Every step, from any state that meets the invariant, gives a state that meets it. -/
def Obligations.StepKeepsTheInvariant : Prop :=
  ∀ s t : State, s.Inv → step s = .next t → t.Inv

/-- Every state some host can bring about meets the invariant. -/
def Obligations.ReachableStatesMeetTheInvariant : Prop :=
  ∀ s : State, Reachable s → s.Inv

/-- No step stops: every situation has the effect the spec gives it (R160, R163, R172, R173; log 4). -/
def Obligations.EveryStepAnswersANextState : Prop :=
  ∀ s : State, ∃ t, step s = .next t ∧ t.outcome ≠ none

/-- R165, R163 (D18, log 21): a tick that reports a fatal error reports the right one, and has halted the machine and moved
PC past the instruction, and nothing else. -/
def Obligations.FatalTicksPreserveTheState : Prop :=
  ∀ (s t : State) (k : FatalKind), s.run = .running → step s = .next t → t.outcome = some (.fatal k) →
    t = { s with pc := s.pc + 2, run := .halted, outcome := some (.fatal k) } ∧
    ((k = .unknownOpcode ∧ ∀ i, ¬ s.fetches i) ∨
     (k = .stackOverflow ∧ s.sp.val = 16 ∧ ∃ nnn, s.fetches (.call nnn)) ∨
     (k = .stackUnderflow ∧ s.sp.val = 0 ∧ s.fetches .ret))

/-- R169: the run state changes only by `pause_toggle`, by `quit` and by a fatal error in a RUNNING tick. -/
def Obligations.RunStateChangesOnlyByItsTransitions : Prop :=
  ∀ (op : HostOp) (s t : State), perform op s = .next t →
    t.run = s.run ∨
    (op = .pauseToggle ∧ s.run = .running ∧ t.run = .paused) ∨
    (op = .pauseToggle ∧ s.run = .paused ∧ t.run = .running) ∨
    (op = .quit ∧ t.run = .halted) ∨
    (op = .tick ∧ s.run = .running ∧ t.run = .halted ∧ ∃ k, t.outcome = some (.fatal k))

/-- R164, R169, R173: once HALTED, no host script brings the machine out of it or changes what it holds for inspection. -/
def Obligations.HaltedIsForGood : Prop :=
  ∀ (ops : List HostOp) (s t : State), s.run = .halted → performAll ops s = .next t →
    t = { s with key := t.key, beep := t.beep, outcome := t.outcome }

/-- R38, R20 (R180): the key latch changes only by `set_key`, and the configuration never. -/
def Obligations.KeysChangeOnlyBySetKey : Prop :=
  ∀ (op : HostOp) (s t : State), perform op s = .next t →
    t.cfg = s.cfg ∧ ((∀ index pressed, op ≠ .setKey index pressed) → t.key = s.key)

/-- R30, R36, R37, R52: in one tick, memory changes only by LD_B and LD_MEM_VX, the framebuffer only by CLS and DRW, the call
stack only by CALL and RET, I only by LD_I, ADD_I and LD_F. -/
def Obligations.OnlyTheNamedInstructionsWriteEachStore : Prop :=
  ∀ s t : State, step s = .next t →
    (t.mem ≠ s.mem → ∃ x, s.fetches (.ldB x) ∨ s.fetches (.ldMemVx x)) ∧
    (t.fb ≠ s.fb → s.fetches .cls ∨ ∃ x y n, s.fetches (.drw x y n)) ∧
    (t.stack ≠ s.stack ∨ t.sp ≠ s.sp → s.fetches .ret ∨ ∃ nnn, s.fetches (.call nnn)) ∧
    (t.i ≠ s.i → (∃ nnn, s.fetches (.ldI nnn)) ∨ ∃ x, s.fetches (.addI x) ∨ s.fetches (.ldF x))

/-- R24's table (VF is V[15]: D1, log 5): whatever the instruction, no general register changes but those the table names. -/
def Obligations.InstructionsWriteOnlyTheirRegisters : Prop :=
  ∀ (i : Instr) (s t : State), exec i s = .next t → SameRegsBut (writesReg i) s t
end

