-- ==== Sys2Proof/Laws/Decode.lean ====
section
/-! SUPPORT. The arithmetic of an opcode's fields: each field of a word, and each packed word, as a number. The decoder's laws
are read from these with omega, never by unfolding bit slices. -/

namespace Sys2Proof

theorem toNat_append_eq {m n : Nat} (a : BitVec m) (b : BitVec n) : (a ++ b).toNat = a.toNat * 2 ^ n + b.toNat := by
  rw [BitVec.toNat_append, ← Nat.shiftLeft_add_eq_or_of_lt b.isLt, Nat.shiftLeft_eq]

/-! ### The fields of a word (R72) -/

theorem fields_cls_toNat (w : Word) : (fields w).cls.toNat = w.toNat / 4096 % 16 := by
  simp [fields, BitVec.extractLsb'_toNat, Nat.shiftRight_eq_div_pow]

theorem fields_x_val (w : Word) : (fields w).x.val = w.toNat / 256 % 16 := by
  show (w.extractLsb' 8 4).toNat = _
  simp [BitVec.extractLsb'_toNat, Nat.shiftRight_eq_div_pow]

theorem fields_y_val (w : Word) : (fields w).y.val = w.toNat / 16 % 16 := by
  show (w.extractLsb' 4 4).toNat = _
  simp [BitVec.extractLsb'_toNat, Nat.shiftRight_eq_div_pow]

theorem fields_n_toNat (w : Word) : (fields w).n.toNat = w.toNat % 16 := by
  simp [fields, BitVec.extractLsb'_toNat]

theorem fields_nn_toNat (w : Word) : (fields w).nn.toNat = w.toNat % 256 := by
  simp [fields, BitVec.extractLsb'_toNat]

theorem fields_nnn_toNat (w : Word) : (fields w).nnn.toNat = w.toNat % 4096 := by
  simp [fields, BitVec.extractLsb'_toNat]

/-! ### Packed words (R73) -/

theorem toNat_packNNN (c : Nibble) (nnn : Addr) : (packNNN c nnn).toNat = c.toNat * 4096 + nnn.toNat :=
  toNat_append_eq c nnn

theorem toNat_packXNN (c : Nibble) (x : Reg) (nn : Byte) :
    (packXNN c x nn).toNat = c.toNat * 4096 + x.val * 256 + nn.toNat := by
  have h : (packXNN c x nn).toNat = c.toNat * 2 ^ 12 + (x.val * 2 ^ 8 + nn.toNat) := by
    show (c ++ ((BitVec.ofFin x : Nibble) ++ nn)).toNat = _
    rw [toNat_append_eq, toNat_append_eq]
    rfl
  rw [h]
  ring

theorem toNat_packXYN (c : Nibble) (x y : Reg) (n : Nibble) :
    (packXYN c x y n).toNat = c.toNat * 4096 + x.val * 256 + y.val * 16 + n.toNat := by
  have h : (packXYN c x y n).toNat = c.toNat * 2 ^ 12 + (x.val * 2 ^ 8 + (y.val * 2 ^ 4 + n.toNat)) := by
    show (c ++ ((BitVec.ofFin x : Nibble) ++ ((BitVec.ofFin y : Nibble) ++ n))).toNat = _
    rw [toNat_append_eq, toNat_append_eq, toNat_append_eq]
    rfl
  rw [h]
  ring

/-! ### The fields of packed words -/

@[simp] theorem fields_packNNN_cls (c : Nibble) (nnn : Addr) : (fields (packNNN c nnn)).cls = c := by
  apply BitVec.eq_of_toNat_eq
  rw [fields_cls_toNat, toNat_packNNN]
  omega

@[simp] theorem fields_packNNN_nnn (c : Nibble) (nnn : Addr) : (fields (packNNN c nnn)).nnn = nnn := by
  apply BitVec.eq_of_toNat_eq
  rw [fields_nnn_toNat, toNat_packNNN]
  omega

@[simp] theorem fields_packXNN_cls (c : Nibble) (x : Reg) (nn : Byte) : (fields (packXNN c x nn)).cls = c := by
  apply BitVec.eq_of_toNat_eq
  rw [fields_cls_toNat, toNat_packXNN]
  omega

@[simp] theorem fields_packXNN_x (c : Nibble) (x : Reg) (nn : Byte) : (fields (packXNN c x nn)).x = x := by
  apply Fin.ext
  rw [fields_x_val, toNat_packXNN]
  omega

@[simp] theorem fields_packXNN_nn (c : Nibble) (x : Reg) (nn : Byte) : (fields (packXNN c x nn)).nn = nn := by
  apply BitVec.eq_of_toNat_eq
  rw [fields_nn_toNat, toNat_packXNN]
  omega

@[simp] theorem fields_packXYN_cls (c : Nibble) (x y : Reg) (n : Nibble) : (fields (packXYN c x y n)).cls = c := by
  apply BitVec.eq_of_toNat_eq
  rw [fields_cls_toNat, toNat_packXYN]
  omega

@[simp] theorem fields_packXYN_x (c : Nibble) (x y : Reg) (n : Nibble) : (fields (packXYN c x y n)).x = x := by
  apply Fin.ext
  rw [fields_x_val, toNat_packXYN]
  omega

@[simp] theorem fields_packXYN_y (c : Nibble) (x y : Reg) (n : Nibble) : (fields (packXYN c x y n)).y = y := by
  apply Fin.ext
  rw [fields_y_val, toNat_packXYN]
  omega

@[simp] theorem fields_packXYN_n (c : Nibble) (x y : Reg) (n : Nibble) : (fields (packXYN c x y n)).n = n := by
  apply BitVec.eq_of_toNat_eq
  rw [fields_n_toNat, toNat_packXYN]
  omega

/-! ### A word is its packed fields -/

theorem packNNN_fields (w : Word) : packNNN (fields w).cls (fields w).nnn = w := by
  apply BitVec.eq_of_toNat_eq
  rw [toNat_packNNN, fields_cls_toNat, fields_nnn_toNat]
  omega

theorem packXNN_fields (w : Word) : packXNN (fields w).cls (fields w).x (fields w).nn = w := by
  apply BitVec.eq_of_toNat_eq
  rw [toNat_packXNN, fields_cls_toNat, fields_x_val, fields_nn_toNat]
  omega

theorem packXYN_fields (w : Word) : packXYN (fields w).cls (fields w).x (fields w).y (fields w).n = w := by
  apply BitVec.eq_of_toNat_eq
  rw [toNat_packXYN, fields_cls_toNat, fields_x_val, fields_y_val, fields_n_toNat]
  omega

/-! ### Bytes of a word (R56) -/

@[simp] theorem wordOfBytes_high_low (w : Word) : wordOfBytes (highByte w) (lowByte w) = w := by
  apply BitVec.eq_of_toNat_eq
  have h : (wordOfBytes (highByte w) (lowByte w)).toNat = (highByte w).toNat * 2 ^ 8 + (lowByte w).toNat :=
    toNat_append_eq _ _
  have hh : (highByte w).toNat = w.toNat / 256 % 256 := by
    simp [highByte, BitVec.extractLsb'_toNat, Nat.shiftRight_eq_div_pow]
  have hl : (lowByte w).toNat = w.toNat % 256 := by
    simp [lowByte, BitVec.extractLsb'_toNat]
  omega

theorem toNat_wordOfBytes (hi lo : Byte) : (wordOfBytes hi lo).toNat = hi.toNat * 256 + lo.toNat :=
  toNat_append_eq hi lo

end Sys2Proof
end

