-- ==== Sys2Proof/Laws/State.lean ====
section
/-! SUPPORT. One lemma per field per update of Machine/Ops.lean, true by rfl, so that no proof unfolds a record update. -/

namespace Sys2Proof.Machine

variable (s : State)

/-! ### setMem -/

@[simp] theorem State.setMem_mem (m : Memory) : (s.setMem m).mem = m := rfl
@[simp] theorem State.setMem_v (m : Memory) : (s.setMem m).v = s.v := rfl
@[simp] theorem State.setMem_i (m : Memory) : (s.setMem m).i = s.i := rfl
@[simp] theorem State.setMem_pc (m : Memory) : (s.setMem m).pc = s.pc := rfl
@[simp] theorem State.setMem_stack (m : Memory) : (s.setMem m).stack = s.stack := rfl
@[simp] theorem State.setMem_sp (m : Memory) : (s.setMem m).sp = s.sp := rfl
@[simp] theorem State.setMem_dt (m : Memory) : (s.setMem m).dt = s.dt := rfl
@[simp] theorem State.setMem_st (m : Memory) : (s.setMem m).st = s.st := rfl
@[simp] theorem State.setMem_fb (m : Memory) : (s.setMem m).fb = s.fb := rfl
@[simp] theorem State.setMem_key (m : Memory) : (s.setMem m).key = s.key := rfl
@[simp] theorem State.setMem_beep (m : Memory) : (s.setMem m).beep = s.beep := rfl
@[simp] theorem State.setMem_run (m : Memory) : (s.setMem m).run = s.run := rfl
@[simp] theorem State.setMem_cfg (m : Memory) : (s.setMem m).cfg = s.cfg := rfl
@[simp] theorem State.setMem_draws (m : Memory) : (s.setMem m).draws = s.draws := rfl
@[simp] theorem State.setMem_outcome (m : Memory) : (s.setMem m).outcome = s.outcome := rfl

/-! ### setV -/

@[simp] theorem State.setV_mem (x : Reg) (b : Byte) : (s.setV x b).mem = s.mem := rfl
@[simp] theorem State.setV_v (x : Reg) (b : Byte) : (s.setV x b).v = s.v.set x b := rfl
@[simp] theorem State.setV_i (x : Reg) (b : Byte) : (s.setV x b).i = s.i := rfl
@[simp] theorem State.setV_pc (x : Reg) (b : Byte) : (s.setV x b).pc = s.pc := rfl
@[simp] theorem State.setV_stack (x : Reg) (b : Byte) : (s.setV x b).stack = s.stack := rfl
@[simp] theorem State.setV_sp (x : Reg) (b : Byte) : (s.setV x b).sp = s.sp := rfl
@[simp] theorem State.setV_dt (x : Reg) (b : Byte) : (s.setV x b).dt = s.dt := rfl
@[simp] theorem State.setV_st (x : Reg) (b : Byte) : (s.setV x b).st = s.st := rfl
@[simp] theorem State.setV_fb (x : Reg) (b : Byte) : (s.setV x b).fb = s.fb := rfl
@[simp] theorem State.setV_key (x : Reg) (b : Byte) : (s.setV x b).key = s.key := rfl
@[simp] theorem State.setV_beep (x : Reg) (b : Byte) : (s.setV x b).beep = s.beep := rfl
@[simp] theorem State.setV_run (x : Reg) (b : Byte) : (s.setV x b).run = s.run := rfl
@[simp] theorem State.setV_cfg (x : Reg) (b : Byte) : (s.setV x b).cfg = s.cfg := rfl
@[simp] theorem State.setV_draws (x : Reg) (b : Byte) : (s.setV x b).draws = s.draws := rfl
@[simp] theorem State.setV_outcome (x : Reg) (b : Byte) : (s.setV x b).outcome = s.outcome := rfl

/-! ### setI -/

@[simp] theorem State.setI_mem (w : Word) : (s.setI w).mem = s.mem := rfl
@[simp] theorem State.setI_v (w : Word) : (s.setI w).v = s.v := rfl
@[simp] theorem State.setI_i (w : Word) : (s.setI w).i = w := rfl
@[simp] theorem State.setI_pc (w : Word) : (s.setI w).pc = s.pc := rfl
@[simp] theorem State.setI_stack (w : Word) : (s.setI w).stack = s.stack := rfl
@[simp] theorem State.setI_sp (w : Word) : (s.setI w).sp = s.sp := rfl
@[simp] theorem State.setI_dt (w : Word) : (s.setI w).dt = s.dt := rfl
@[simp] theorem State.setI_st (w : Word) : (s.setI w).st = s.st := rfl
@[simp] theorem State.setI_fb (w : Word) : (s.setI w).fb = s.fb := rfl
@[simp] theorem State.setI_key (w : Word) : (s.setI w).key = s.key := rfl
@[simp] theorem State.setI_beep (w : Word) : (s.setI w).beep = s.beep := rfl
@[simp] theorem State.setI_run (w : Word) : (s.setI w).run = s.run := rfl
@[simp] theorem State.setI_cfg (w : Word) : (s.setI w).cfg = s.cfg := rfl
@[simp] theorem State.setI_draws (w : Word) : (s.setI w).draws = s.draws := rfl
@[simp] theorem State.setI_outcome (w : Word) : (s.setI w).outcome = s.outcome := rfl

/-! ### setPc -/

@[simp] theorem State.setPc_mem (w : Word) : (s.setPc w).mem = s.mem := rfl
@[simp] theorem State.setPc_v (w : Word) : (s.setPc w).v = s.v := rfl
@[simp] theorem State.setPc_i (w : Word) : (s.setPc w).i = s.i := rfl
@[simp] theorem State.setPc_pc (w : Word) : (s.setPc w).pc = w := rfl
@[simp] theorem State.setPc_stack (w : Word) : (s.setPc w).stack = s.stack := rfl
@[simp] theorem State.setPc_sp (w : Word) : (s.setPc w).sp = s.sp := rfl
@[simp] theorem State.setPc_dt (w : Word) : (s.setPc w).dt = s.dt := rfl
@[simp] theorem State.setPc_st (w : Word) : (s.setPc w).st = s.st := rfl
@[simp] theorem State.setPc_fb (w : Word) : (s.setPc w).fb = s.fb := rfl
@[simp] theorem State.setPc_key (w : Word) : (s.setPc w).key = s.key := rfl
@[simp] theorem State.setPc_beep (w : Word) : (s.setPc w).beep = s.beep := rfl
@[simp] theorem State.setPc_run (w : Word) : (s.setPc w).run = s.run := rfl
@[simp] theorem State.setPc_cfg (w : Word) : (s.setPc w).cfg = s.cfg := rfl
@[simp] theorem State.setPc_draws (w : Word) : (s.setPc w).draws = s.draws := rfl
@[simp] theorem State.setPc_outcome (w : Word) : (s.setPc w).outcome = s.outcome := rfl

/-! ### setStack -/

@[simp] theorem State.setStack_mem (k : Fin 16) (w : Word) : (s.setStack k w).mem = s.mem := rfl
@[simp] theorem State.setStack_v (k : Fin 16) (w : Word) : (s.setStack k w).v = s.v := rfl
@[simp] theorem State.setStack_i (k : Fin 16) (w : Word) : (s.setStack k w).i = s.i := rfl
@[simp] theorem State.setStack_pc (k : Fin 16) (w : Word) : (s.setStack k w).pc = s.pc := rfl
@[simp] theorem State.setStack_stack (k : Fin 16) (w : Word) : (s.setStack k w).stack = s.stack.set k w := rfl
@[simp] theorem State.setStack_sp (k : Fin 16) (w : Word) : (s.setStack k w).sp = s.sp := rfl
@[simp] theorem State.setStack_dt (k : Fin 16) (w : Word) : (s.setStack k w).dt = s.dt := rfl
@[simp] theorem State.setStack_st (k : Fin 16) (w : Word) : (s.setStack k w).st = s.st := rfl
@[simp] theorem State.setStack_fb (k : Fin 16) (w : Word) : (s.setStack k w).fb = s.fb := rfl
@[simp] theorem State.setStack_key (k : Fin 16) (w : Word) : (s.setStack k w).key = s.key := rfl
@[simp] theorem State.setStack_beep (k : Fin 16) (w : Word) : (s.setStack k w).beep = s.beep := rfl
@[simp] theorem State.setStack_run (k : Fin 16) (w : Word) : (s.setStack k w).run = s.run := rfl
@[simp] theorem State.setStack_cfg (k : Fin 16) (w : Word) : (s.setStack k w).cfg = s.cfg := rfl
@[simp] theorem State.setStack_draws (k : Fin 16) (w : Word) : (s.setStack k w).draws = s.draws := rfl
@[simp] theorem State.setStack_outcome (k : Fin 16) (w : Word) : (s.setStack k w).outcome = s.outcome := rfl

/-! ### setSp -/

@[simp] theorem State.setSp_mem (k : Fin 17) : (s.setSp k).mem = s.mem := rfl
@[simp] theorem State.setSp_v (k : Fin 17) : (s.setSp k).v = s.v := rfl
@[simp] theorem State.setSp_i (k : Fin 17) : (s.setSp k).i = s.i := rfl
@[simp] theorem State.setSp_pc (k : Fin 17) : (s.setSp k).pc = s.pc := rfl
@[simp] theorem State.setSp_stack (k : Fin 17) : (s.setSp k).stack = s.stack := rfl
@[simp] theorem State.setSp_sp (k : Fin 17) : (s.setSp k).sp = k := rfl
@[simp] theorem State.setSp_dt (k : Fin 17) : (s.setSp k).dt = s.dt := rfl
@[simp] theorem State.setSp_st (k : Fin 17) : (s.setSp k).st = s.st := rfl
@[simp] theorem State.setSp_fb (k : Fin 17) : (s.setSp k).fb = s.fb := rfl
@[simp] theorem State.setSp_key (k : Fin 17) : (s.setSp k).key = s.key := rfl
@[simp] theorem State.setSp_beep (k : Fin 17) : (s.setSp k).beep = s.beep := rfl
@[simp] theorem State.setSp_run (k : Fin 17) : (s.setSp k).run = s.run := rfl
@[simp] theorem State.setSp_cfg (k : Fin 17) : (s.setSp k).cfg = s.cfg := rfl
@[simp] theorem State.setSp_draws (k : Fin 17) : (s.setSp k).draws = s.draws := rfl
@[simp] theorem State.setSp_outcome (k : Fin 17) : (s.setSp k).outcome = s.outcome := rfl

/-! ### setDt -/

@[simp] theorem State.setDt_mem (b : Byte) : (s.setDt b).mem = s.mem := rfl
@[simp] theorem State.setDt_v (b : Byte) : (s.setDt b).v = s.v := rfl
@[simp] theorem State.setDt_i (b : Byte) : (s.setDt b).i = s.i := rfl
@[simp] theorem State.setDt_pc (b : Byte) : (s.setDt b).pc = s.pc := rfl
@[simp] theorem State.setDt_stack (b : Byte) : (s.setDt b).stack = s.stack := rfl
@[simp] theorem State.setDt_sp (b : Byte) : (s.setDt b).sp = s.sp := rfl
@[simp] theorem State.setDt_dt (b : Byte) : (s.setDt b).dt = b := rfl
@[simp] theorem State.setDt_st (b : Byte) : (s.setDt b).st = s.st := rfl
@[simp] theorem State.setDt_fb (b : Byte) : (s.setDt b).fb = s.fb := rfl
@[simp] theorem State.setDt_key (b : Byte) : (s.setDt b).key = s.key := rfl
@[simp] theorem State.setDt_beep (b : Byte) : (s.setDt b).beep = s.beep := rfl
@[simp] theorem State.setDt_run (b : Byte) : (s.setDt b).run = s.run := rfl
@[simp] theorem State.setDt_cfg (b : Byte) : (s.setDt b).cfg = s.cfg := rfl
@[simp] theorem State.setDt_draws (b : Byte) : (s.setDt b).draws = s.draws := rfl
@[simp] theorem State.setDt_outcome (b : Byte) : (s.setDt b).outcome = s.outcome := rfl

/-! ### setSt -/

@[simp] theorem State.setSt_mem (b : Byte) : (s.setSt b).mem = s.mem := rfl
@[simp] theorem State.setSt_v (b : Byte) : (s.setSt b).v = s.v := rfl
@[simp] theorem State.setSt_i (b : Byte) : (s.setSt b).i = s.i := rfl
@[simp] theorem State.setSt_pc (b : Byte) : (s.setSt b).pc = s.pc := rfl
@[simp] theorem State.setSt_stack (b : Byte) : (s.setSt b).stack = s.stack := rfl
@[simp] theorem State.setSt_sp (b : Byte) : (s.setSt b).sp = s.sp := rfl
@[simp] theorem State.setSt_dt (b : Byte) : (s.setSt b).dt = s.dt := rfl
@[simp] theorem State.setSt_st (b : Byte) : (s.setSt b).st = b := rfl
@[simp] theorem State.setSt_fb (b : Byte) : (s.setSt b).fb = s.fb := rfl
@[simp] theorem State.setSt_key (b : Byte) : (s.setSt b).key = s.key := rfl
@[simp] theorem State.setSt_beep (b : Byte) : (s.setSt b).beep = s.beep := rfl
@[simp] theorem State.setSt_run (b : Byte) : (s.setSt b).run = s.run := rfl
@[simp] theorem State.setSt_cfg (b : Byte) : (s.setSt b).cfg = s.cfg := rfl
@[simp] theorem State.setSt_draws (b : Byte) : (s.setSt b).draws = s.draws := rfl
@[simp] theorem State.setSt_outcome (b : Byte) : (s.setSt b).outcome = s.outcome := rfl

/-! ### setFb -/

@[simp] theorem State.setFb_mem (f : Frame) : (s.setFb f).mem = s.mem := rfl
@[simp] theorem State.setFb_v (f : Frame) : (s.setFb f).v = s.v := rfl
@[simp] theorem State.setFb_i (f : Frame) : (s.setFb f).i = s.i := rfl
@[simp] theorem State.setFb_pc (f : Frame) : (s.setFb f).pc = s.pc := rfl
@[simp] theorem State.setFb_stack (f : Frame) : (s.setFb f).stack = s.stack := rfl
@[simp] theorem State.setFb_sp (f : Frame) : (s.setFb f).sp = s.sp := rfl
@[simp] theorem State.setFb_dt (f : Frame) : (s.setFb f).dt = s.dt := rfl
@[simp] theorem State.setFb_st (f : Frame) : (s.setFb f).st = s.st := rfl
@[simp] theorem State.setFb_fb (f : Frame) : (s.setFb f).fb = f := rfl
@[simp] theorem State.setFb_key (f : Frame) : (s.setFb f).key = s.key := rfl
@[simp] theorem State.setFb_beep (f : Frame) : (s.setFb f).beep = s.beep := rfl
@[simp] theorem State.setFb_run (f : Frame) : (s.setFb f).run = s.run := rfl
@[simp] theorem State.setFb_cfg (f : Frame) : (s.setFb f).cfg = s.cfg := rfl
@[simp] theorem State.setFb_draws (f : Frame) : (s.setFb f).draws = s.draws := rfl
@[simp] theorem State.setFb_outcome (f : Frame) : (s.setFb f).outcome = s.outcome := rfl

/-! ### setKey -/

@[simp] theorem State.setKey_mem (k : Fin 16) (p : Bool) : (s.setKey k p).mem = s.mem := rfl
@[simp] theorem State.setKey_v (k : Fin 16) (p : Bool) : (s.setKey k p).v = s.v := rfl
@[simp] theorem State.setKey_i (k : Fin 16) (p : Bool) : (s.setKey k p).i = s.i := rfl
@[simp] theorem State.setKey_pc (k : Fin 16) (p : Bool) : (s.setKey k p).pc = s.pc := rfl
@[simp] theorem State.setKey_stack (k : Fin 16) (p : Bool) : (s.setKey k p).stack = s.stack := rfl
@[simp] theorem State.setKey_sp (k : Fin 16) (p : Bool) : (s.setKey k p).sp = s.sp := rfl
@[simp] theorem State.setKey_dt (k : Fin 16) (p : Bool) : (s.setKey k p).dt = s.dt := rfl
@[simp] theorem State.setKey_st (k : Fin 16) (p : Bool) : (s.setKey k p).st = s.st := rfl
@[simp] theorem State.setKey_fb (k : Fin 16) (p : Bool) : (s.setKey k p).fb = s.fb := rfl
@[simp] theorem State.setKey_key (k : Fin 16) (p : Bool) : (s.setKey k p).key = s.key.set k p := rfl
@[simp] theorem State.setKey_beep (k : Fin 16) (p : Bool) : (s.setKey k p).beep = s.beep := rfl
@[simp] theorem State.setKey_run (k : Fin 16) (p : Bool) : (s.setKey k p).run = s.run := rfl
@[simp] theorem State.setKey_cfg (k : Fin 16) (p : Bool) : (s.setKey k p).cfg = s.cfg := rfl
@[simp] theorem State.setKey_draws (k : Fin 16) (p : Bool) : (s.setKey k p).draws = s.draws := rfl
@[simp] theorem State.setKey_outcome (k : Fin 16) (p : Bool) : (s.setKey k p).outcome = s.outcome := rfl

/-! ### setBeep -/

@[simp] theorem State.setBeep_mem (b : Bool) : (s.setBeep b).mem = s.mem := rfl
@[simp] theorem State.setBeep_v (b : Bool) : (s.setBeep b).v = s.v := rfl
@[simp] theorem State.setBeep_i (b : Bool) : (s.setBeep b).i = s.i := rfl
@[simp] theorem State.setBeep_pc (b : Bool) : (s.setBeep b).pc = s.pc := rfl
@[simp] theorem State.setBeep_stack (b : Bool) : (s.setBeep b).stack = s.stack := rfl
@[simp] theorem State.setBeep_sp (b : Bool) : (s.setBeep b).sp = s.sp := rfl
@[simp] theorem State.setBeep_dt (b : Bool) : (s.setBeep b).dt = s.dt := rfl
@[simp] theorem State.setBeep_st (b : Bool) : (s.setBeep b).st = s.st := rfl
@[simp] theorem State.setBeep_fb (b : Bool) : (s.setBeep b).fb = s.fb := rfl
@[simp] theorem State.setBeep_key (b : Bool) : (s.setBeep b).key = s.key := rfl
@[simp] theorem State.setBeep_beep (b : Bool) : (s.setBeep b).beep = b := rfl
@[simp] theorem State.setBeep_run (b : Bool) : (s.setBeep b).run = s.run := rfl
@[simp] theorem State.setBeep_cfg (b : Bool) : (s.setBeep b).cfg = s.cfg := rfl
@[simp] theorem State.setBeep_draws (b : Bool) : (s.setBeep b).draws = s.draws := rfl
@[simp] theorem State.setBeep_outcome (b : Bool) : (s.setBeep b).outcome = s.outcome := rfl

/-! ### setRun -/

@[simp] theorem State.setRun_mem (r : RunState) : (s.setRun r).mem = s.mem := rfl
@[simp] theorem State.setRun_v (r : RunState) : (s.setRun r).v = s.v := rfl
@[simp] theorem State.setRun_i (r : RunState) : (s.setRun r).i = s.i := rfl
@[simp] theorem State.setRun_pc (r : RunState) : (s.setRun r).pc = s.pc := rfl
@[simp] theorem State.setRun_stack (r : RunState) : (s.setRun r).stack = s.stack := rfl
@[simp] theorem State.setRun_sp (r : RunState) : (s.setRun r).sp = s.sp := rfl
@[simp] theorem State.setRun_dt (r : RunState) : (s.setRun r).dt = s.dt := rfl
@[simp] theorem State.setRun_st (r : RunState) : (s.setRun r).st = s.st := rfl
@[simp] theorem State.setRun_fb (r : RunState) : (s.setRun r).fb = s.fb := rfl
@[simp] theorem State.setRun_key (r : RunState) : (s.setRun r).key = s.key := rfl
@[simp] theorem State.setRun_beep (r : RunState) : (s.setRun r).beep = s.beep := rfl
@[simp] theorem State.setRun_run (r : RunState) : (s.setRun r).run = r := rfl
@[simp] theorem State.setRun_cfg (r : RunState) : (s.setRun r).cfg = s.cfg := rfl
@[simp] theorem State.setRun_draws (r : RunState) : (s.setRun r).draws = s.draws := rfl
@[simp] theorem State.setRun_outcome (r : RunState) : (s.setRun r).outcome = s.outcome := rfl

/-! ### setDraws -/

@[simp] theorem State.setDraws_mem (n : Nat) : (s.setDraws n).mem = s.mem := rfl
@[simp] theorem State.setDraws_v (n : Nat) : (s.setDraws n).v = s.v := rfl
@[simp] theorem State.setDraws_i (n : Nat) : (s.setDraws n).i = s.i := rfl
@[simp] theorem State.setDraws_pc (n : Nat) : (s.setDraws n).pc = s.pc := rfl
@[simp] theorem State.setDraws_stack (n : Nat) : (s.setDraws n).stack = s.stack := rfl
@[simp] theorem State.setDraws_sp (n : Nat) : (s.setDraws n).sp = s.sp := rfl
@[simp] theorem State.setDraws_dt (n : Nat) : (s.setDraws n).dt = s.dt := rfl
@[simp] theorem State.setDraws_st (n : Nat) : (s.setDraws n).st = s.st := rfl
@[simp] theorem State.setDraws_fb (n : Nat) : (s.setDraws n).fb = s.fb := rfl
@[simp] theorem State.setDraws_key (n : Nat) : (s.setDraws n).key = s.key := rfl
@[simp] theorem State.setDraws_beep (n : Nat) : (s.setDraws n).beep = s.beep := rfl
@[simp] theorem State.setDraws_run (n : Nat) : (s.setDraws n).run = s.run := rfl
@[simp] theorem State.setDraws_cfg (n : Nat) : (s.setDraws n).cfg = s.cfg := rfl
@[simp] theorem State.setDraws_draws (n : Nat) : (s.setDraws n).draws = n := rfl
@[simp] theorem State.setDraws_outcome (n : Nat) : (s.setDraws n).outcome = s.outcome := rfl

/-! ### setOutcome -/

@[simp] theorem State.setOutcome_mem (o : TickOutcome) : (s.setOutcome o).mem = s.mem := rfl
@[simp] theorem State.setOutcome_v (o : TickOutcome) : (s.setOutcome o).v = s.v := rfl
@[simp] theorem State.setOutcome_i (o : TickOutcome) : (s.setOutcome o).i = s.i := rfl
@[simp] theorem State.setOutcome_pc (o : TickOutcome) : (s.setOutcome o).pc = s.pc := rfl
@[simp] theorem State.setOutcome_stack (o : TickOutcome) : (s.setOutcome o).stack = s.stack := rfl
@[simp] theorem State.setOutcome_sp (o : TickOutcome) : (s.setOutcome o).sp = s.sp := rfl
@[simp] theorem State.setOutcome_dt (o : TickOutcome) : (s.setOutcome o).dt = s.dt := rfl
@[simp] theorem State.setOutcome_st (o : TickOutcome) : (s.setOutcome o).st = s.st := rfl
@[simp] theorem State.setOutcome_fb (o : TickOutcome) : (s.setOutcome o).fb = s.fb := rfl
@[simp] theorem State.setOutcome_key (o : TickOutcome) : (s.setOutcome o).key = s.key := rfl
@[simp] theorem State.setOutcome_beep (o : TickOutcome) : (s.setOutcome o).beep = s.beep := rfl
@[simp] theorem State.setOutcome_run (o : TickOutcome) : (s.setOutcome o).run = s.run := rfl
@[simp] theorem State.setOutcome_cfg (o : TickOutcome) : (s.setOutcome o).cfg = s.cfg := rfl
@[simp] theorem State.setOutcome_draws (o : TickOutcome) : (s.setOutcome o).draws = s.draws := rfl
@[simp] theorem State.setOutcome_outcome (o : TickOutcome) : (s.setOutcome o).outcome = some o := rfl

end Sys2Proof.Machine
end

