-- ==== Sys2Proof/Laws/Memory.lean ====
section
/-! SUPPORT. Memory: a read after a write, and that every operation keeps the canonical form. -/

namespace Sys2Proof.Machine

/-! ### The list operations -/

theorem Memory.find_insert_same (a : Nat) (b : Byte) (m : Memory) : Memory.find a (Memory.insert a b m) = some b := by
  induction m with
  | nil => simp [Memory.insert, Memory.find]
  | cons p m ih =>
    simp only [Memory.insert]
    split
    · simp [Memory.find]
    · split
      · simp [Memory.find]
      · rename_i h
        simp [Memory.find, Ne.symm h, ih]

theorem Memory.find_insert_other {a a' : Nat} (h : a' ≠ a) (b : Byte) (m : Memory) :
    Memory.find a' (Memory.insert a b m) = Memory.find a' m := by
  induction m with
  | nil => simp [Memory.insert, Memory.find, Ne.symm h]
  | cons p m ih =>
    simp only [Memory.insert]
    split
    · simp [Memory.find, Ne.symm h]
    · split
      · rename_i hp
        simp [Memory.find, Ne.symm h, ← hp]
      · simp [Memory.find, ih]

theorem Memory.find_eq_none_of_lt {a : Nat} {m : Memory} (h : ∀ q ∈ m, a < q.1) : Memory.find a m = none := by
  induction m with
  | nil => rfl
  | cons p m ih =>
    have hp := h p (by simp)
    rw [Memory.find, if_neg (by omega), ih fun q hq => h q (by simp [hq])]

theorem Memory.find_erase_same {a : Nat} {m : Memory} (h : m.Pairwise fun p q => p.1 < q.1) :
    Memory.find a (Memory.erase a m) = none := by
  induction m with
  | nil => rfl
  | cons p m ih =>
    rw [List.pairwise_cons] at h
    simp only [Memory.erase]
    split
    · rename_i hp
      exact Memory.find_eq_none_of_lt fun q hq => hp ▸ h.1 q hq
    · rename_i hp
      rw [Memory.find, if_neg hp, ih h.2]

theorem Memory.find_erase_other {a a' : Nat} (h : a' ≠ a) (m : Memory) :
    Memory.find a' (Memory.erase a m) = Memory.find a' m := by
  induction m with
  | nil => rfl
  | cons p m ih =>
    simp only [Memory.erase]
    split
    · rename_i hp
      rw [Memory.find, if_neg (by omega)]
    · simp only [Memory.find, ih]

theorem Memory.mem_insert {a : Nat} {b : Byte} {m : Memory} {q : Host.Cell} (h : q ∈ Memory.insert a b m) :
    q = (a, b) ∨ q ∈ m := by
  induction m with
  | nil => simpa [Memory.insert] using h
  | cons p m ih =>
    simp only [Memory.insert] at h
    split at h
    · simpa using h
    · split at h
      · rcases List.mem_cons.1 h with h | h
        · exact .inl h
        · exact .inr (List.mem_cons_of_mem _ h)
      · rcases List.mem_cons.1 h with h | h
        · exact .inr (by simp [h])
        · exact (ih h).imp_right (List.mem_cons_of_mem _)

theorem Memory.mem_erase {a : Nat} {m : Memory} {q : Host.Cell} (h : q ∈ Memory.erase a m) : q ∈ m := by
  induction m with
  | nil => exact h
  | cons p m ih =>
    simp only [Memory.erase] at h
    split at h
    · exact List.mem_cons_of_mem _ h
    · rcases List.mem_cons.1 h with h | h
      · simp [h]
      · exact List.mem_cons_of_mem _ (ih h)

theorem Memory.pairwise_insert {a : Nat} {b : Byte} {m : Memory} (h : m.Pairwise fun p q => p.1 < q.1) :
    (Memory.insert a b m).Pairwise fun p q => p.1 < q.1 := by
  induction m with
  | nil => simp [Memory.insert]
  | cons p m ih =>
    have hc := List.pairwise_cons.1 h
    simp only [Memory.insert]
    split
    · rename_i hlt
      refine List.pairwise_cons.2 ⟨fun q hq => ?_, h⟩
      rcases List.mem_cons.1 hq with rfl | hq
      · exact hlt
      · exact Nat.lt_trans hlt (hc.1 q hq)
    · split
      · rename_i heq
        exact List.pairwise_cons.2 ⟨fun q hq => by simpa [heq] using hc.1 q hq, hc.2⟩
      · refine List.pairwise_cons.2 ⟨fun q hq => ?_, ih hc.2⟩
        rcases Memory.mem_insert hq with rfl | hq
        · simp only; omega
        · exact hc.1 q hq

theorem Memory.pairwise_erase {a : Nat} {m : Memory} (h : m.Pairwise fun p q => p.1 < q.1) :
    (Memory.erase a m).Pairwise fun p q => p.1 < q.1 := by
  induction m with
  | nil => exact h
  | cons p m ih =>
    have hc := List.pairwise_cons.1 h
    simp only [Memory.erase]
    split
    · exact hc.2
    · exact List.pairwise_cons.2 ⟨fun q hq => hc.1 q (Memory.mem_erase hq), ih hc.2⟩

/-! ### Reading and writing -/

theorem Memory.wf_nil (c : Config) : Memory.wf c [] := by
  simp [Memory.wf]

/-- A write keeps the canonical form. -/
theorem Memory.wf_write {c : Config} {m : Memory} (h : Memory.wf c m) {a : Nat} (ha : a < 4096) (b : Byte) :
    Memory.wf c (Memory.write c a b m) := by
  simp only [Memory.write]
  split
  · exact ⟨Memory.pairwise_erase h.1, fun q hq => h.2 q (Memory.mem_erase hq)⟩
  · rename_i hb
    refine ⟨Memory.pairwise_insert h.1, fun q hq => ?_⟩
    rcases Memory.mem_insert hq with rfl | hq
    · exact ⟨ha, hb⟩
    · exact h.2 q hq

/-- Reading back what was written. -/
theorem Memory.read_write_same {c : Config} {m : Memory} (h : Memory.wf c m) (a : Nat) (b : Byte) :
    Memory.read c (Memory.write c a b m) a = b := by
  simp only [Memory.write, Memory.read]
  split
  · rename_i hb
    rw [Memory.find_erase_same h.1, hb]
    rfl
  · rw [Memory.find_insert_same]
    rfl

/-- A write leaves every other address alone. -/
theorem Memory.read_write_other (c : Config) (m : Memory) {a a' : Nat} (h : a' ≠ a) (b : Byte) :
    Memory.read c (Memory.write c a b m) a' = Memory.read c m a' := by
  simp only [Memory.write, Memory.read]
  split
  · rw [Memory.find_erase_other h]
  · rw [Memory.find_insert_other h]

/-- A listed entry is found, where the addresses rise. -/
theorem Memory.find_of_mem {m : Memory} (h : m.Pairwise fun p q => p.1 < q.1) {p : Host.Cell} (hp : p ∈ m) :
    Memory.find p.1 m = some p.2 := by
  induction m with
  | nil => cases hp
  | cons q m ih =>
    have hc := List.pairwise_cons.1 h
    rcases List.mem_cons.1 hp with rfl | hp
    · simp [Memory.find]
    · have := hc.1 p hp
      rw [Memory.find, if_neg (by omega), ih hc.2 hp]

/-- A found byte is listed. -/
theorem Memory.mem_of_find {m : Memory} {a : Nat} {b : Byte} (h : Memory.find a m = some b) : (a, b) ∈ m := by
  induction m with
  | nil => cases h
  | cons q m ih =>
    rw [Memory.find] at h
    split at h
    · rename_i hq
      cases h
      simp [← hq]
    · exact List.mem_cons_of_mem _ (ih h)

/-- The addresses that read other than after construction are exactly the listed ones. -/
theorem Memory.find_eq_read {c : Config} {m : Memory} (h : Memory.wf c m) (a : Nat) :
    Memory.find a m = if Memory.read c m a = initialByte c a then none else some (Memory.read c m a) := by
  unfold Memory.read
  cases hf : Memory.find a m with
  | none => simp
  | some b =>
    have hb := (h.2 _ (Memory.mem_of_find hf)).2
    simp [hb]

/-! ### The same on states -/

theorem cellOf_lt (a : Nat) : cellOf a < 4096 :=
  Nat.mod_lt _ (by decide)

@[simp] theorem cellOf_cellOf (a : Nat) : cellOf (cellOf a) = cellOf a :=
  Nat.mod_mod _ _

@[simp] theorem writeByte_cfg (a : Nat) (b : Byte) (s : State) : (writeByte a b s).cfg = s.cfg := rfl

/-- Everything but memory is as before a byte is stored. -/
theorem writeByte_eq (a : Nat) (b : Byte) (s : State) : writeByte a b s = s.setMem (writeByte a b s).mem := rfl

theorem readByte_writeByte_same {s : State} (h : Memory.wf s.cfg s.mem) {a a' : Nat} (ha : cellOf a' = cellOf a) (b : Byte) :
    readByte a' (writeByte a b s) = b := by
  simp only [readByte, writeByte, State.setMem_cfg, State.setMem_mem, ha]
  exact Memory.read_write_same h _ _

theorem readByte_writeByte_other {a a' : Nat} (ha : cellOf a' ≠ cellOf a) (b : Byte) (s : State) :
    readByte a' (writeByte a b s) = readByte a' s := by
  simp only [readByte, writeByte, State.setMem_cfg, State.setMem_mem]
  exact Memory.read_write_other _ _ ha _

theorem writeByte_wf {s : State} (h : Memory.wf s.cfg s.mem) (a : Nat) (b : Byte) :
    Memory.wf (writeByte a b s).cfg (writeByte a b s).mem :=
  Memory.wf_write h (cellOf_lt a) b

/-- Only memory changes when bytes are stored. -/
theorem writeBytes_eq (a : Nat) (bs : List Byte) (s : State) : writeBytes a bs s = s.setMem (writeBytes a bs s).mem := by
  induction bs generalizing a s with
  | nil => rfl
  | cons b bs ih =>
    rw [writeBytes, ih]
    rfl

theorem writeBytes_wf {s : State} (h : Memory.wf s.cfg s.mem) (a : Nat) (bs : List Byte) :
    Memory.wf (writeBytes a bs s).cfg (writeBytes a bs s).mem := by
  induction bs generalizing a s with
  | nil => exact h
  | cons b bs ih => exact ih (writeByte_wf h a b) (a + 1)

/-- Addresses outside the stored ones read as before. -/
theorem readByte_writeBytes_other {a a' : Nat} {bs : List Byte} (h : ∀ k < bs.length, cellOf a' ≠ cellOf (a + k)) (s : State) :
    readByte a' (writeBytes a bs s) = readByte a' s := by
  induction bs generalizing a s with
  | nil => rfl
  | cons b bs ih =>
    rw [writeBytes, ih (fun k hk => by have := h (k + 1) (by simpa using hk); rwa [show a + 1 + k = a + (k + 1) by omega])]
    exact readByte_writeByte_other (h 0 (by simp)) b s

/-- At most 4096 bytes stored at rising addresses read back as they were stored. -/
theorem readByte_writeBytes_same {s : State} (h : Memory.wf s.cfg s.mem) (a : Nat) {bs : List Byte} (hl : bs.length ≤ 4096)
    {k : Nat} (hk : k < bs.length) : readByte (a + k) (writeBytes a bs s) = bs[k] := by
  induction bs generalizing a s k with
  | nil => simp at hk
  | cons b bs ih =>
    rw [List.length_cons] at hl hk
    rw [writeBytes]
    cases k with
    | zero =>
      rw [readByte_writeBytes_other (fun j hj => by unfold cellOf; omega)]
      exact readByte_writeByte_same h rfl b
    | succ k =>
      rw [show a + (k + 1) = a + 1 + k by omega]
      exact ih (writeByte_wf h a b) (a + 1) (by omega) (by omega)

end Sys2Proof.Machine
end

