-- ==== Sys2Proof/Laws/Ops.lean ====
section
/-! SUPPORT. One lemma per shared operation that says everything it does: registers, flags, skips, the call stack, fatal
errors, register loads and stores, keys, the timer step. -/

namespace Sys2Proof.Machine

/-! ### Registers and flags -/

theorem reg_setV (x y : Reg) (b : Byte) (s : State) : reg y (s.setV x b) = if y = x then b else reg y s := by
  have h : (x.val = y.val) ↔ (y = x) := by rw [Fin.ext_iff, eq_comm]
  simp [reg, Vector.getElem_set, h]

@[simp] theorem reg_setV_same (x : Reg) (b : Byte) (s : State) : reg x (s.setV x b) = b := by
  simp [reg_setV]

theorem reg_setV_other {x y : Reg} (h : y ≠ x) (b : Byte) (s : State) : reg y (s.setV x b) = reg y s := by
  simp [reg_setV, h]

/-- Writing a register leaves everything but that register alone. -/
theorem setV_eq (x : Reg) (b : Byte) (s : State) : s.setV x b = { s with v := s.v.set x b } := rfl

theorem reg_setFlag (set : Bool) (y : Reg) (s : State) :
    reg y (setFlag set s) = if y = flagReg then flagByte set else reg y s :=
  reg_setV _ _ _ _

/-- R116: the flag register holds the flag, for x = 15 too; the destination holds the result, unless it is the flag
register. -/
theorem reg_setResultAndFlag (x y : Reg) (r : Byte) (set : Bool) (s : State) :
    reg y (setResultAndFlag x r set s) = if y = flagReg then flagByte set else if y = x then r else reg y s := by
  simp [setResultAndFlag, reg_setFlag, reg_setV]

/-- Only the register file changes when a result and its flag are written. -/
theorem setResultAndFlag_eq (x : Reg) (r : Byte) (set : Bool) (s : State) :
    setResultAndFlag x r set s = { s with v := (s.v.set x r).set flagReg (flagByte set) } := rfl

theorem setFlag_eq (set : Bool) (s : State) : setFlag set s = { s with v := s.v.set flagReg (flagByte set) } := rfl

/-! ### PC -/

theorem skipIf_eq (cond : Bool) (s : State) : skipIf cond s = s.setPc (if cond then s.pc + 2 else s.pc) := by
  cases cond <;> rfl

theorem addrOperand_toNat (nnn : Addr) : (addrOperand nnn).toNat = nnn.toNat := by
  simp [addrOperand]
  omega

theorem wordOperand_toNat (x : Reg) (s : State) : (wordOperand x s).toNat = (reg x s).toNat := by
  simp [wordOperand]
  omega

/-! ### Fatal errors and the call stack -/

theorem raiseFatal_eq (k : FatalKind) (s : State) :
    raiseFatal k s = .next { s with run := .halted, outcome := some (.fatal k) } := rfl

/-- Everything a push can do. -/
theorem pushThen_cases (w : Word) (next : State → Result) (s : State) :
    (∃ h : s.sp.val < 16, pushThen w next s =
      next ((s.setStack ⟨s.sp.val, h⟩ w).setSp ⟨s.sp.val + 1, by omega⟩)) ∨
    (s.sp.val = 16 ∧ pushThen w next s = raiseFatal .stackOverflow s) := by
  unfold pushThen
  split
  · rename_i h
    exact .inl ⟨h, rfl⟩
  · exact .inr ⟨by omega, rfl⟩

/-- Everything a pop can do. -/
theorem popThen_cases (next : Word → State → Result) (s : State) :
    (∃ h : 0 < s.sp.val, popThen next s =
      next (s.stack[s.sp.val - 1]'(by omega)) (s.setSp ⟨s.sp.val - 1, by omega⟩)) ∨
    (s.sp.val = 0 ∧ popThen next s = raiseFatal .stackUnderflow s) := by
  unfold popThen
  split
  · rename_i h
    exact .inl ⟨h, rfl⟩
  · exact .inr ⟨by omega, rfl⟩

/-! ### Register loads and stores -/

theorem mem_regsUpTo (x k : Reg) : k ∈ regsUpTo x ↔ k ≤ x := by
  revert k x
  decide

theorem regsUpTo_length (x : Reg) : (regsUpTo x).length = x.val + 1 := by
  revert x
  decide

theorem regsUpTo_get (x : Reg) (k : Nat) (h : k < (regsUpTo x).length) : (regsUpTo x)[k].val = k := by
  have hx := x.isLt
  rw [regsUpTo_length] at h
  simp only [regsUpTo, List.getElem_take]
  have : k < 16 := by omega
  interval_cases k <;> rfl

/-- Only the register file changes when registers are loaded. -/
theorem loadRegs_eq (base : Nat) (ks : List Reg) (s : State) : loadRegs base ks s = { s with v := (loadRegs base ks s).v } := by
  induction ks generalizing s with
  | nil => rfl
  | cons k ks ih =>
    rw [loadRegs, ih]
    rfl

/-- Each listed register holds its byte of memory, the others their old value. -/
theorem reg_loadRegs (base : Nat) (ks : List Reg) (y : Reg) (s : State) :
    reg y (loadRegs base ks s) = if y ∈ ks then readByte (base + y.val) s else reg y s := by
  induction ks generalizing s with
  | nil => simp [loadRegs]
  | cons k ks ih =>
    rw [loadRegs, ih]
    by_cases hk : y = k
    · subst hk
      simp only [List.mem_cons, true_or, if_true, reg_setV_same]
      split <;> rfl
    · simp only [List.mem_cons, hk, false_or, reg_setV_other hk]
      rfl

/-! ### Keys -/

theorem mem_allRegs (k : Reg) : k ∈ allRegs := by
  revert k
  decide

theorem lowestKey_none (s : State) : lowestKey s = none ↔ ∀ k : Fin 16, s.key[k] = false := by
  simp only [lowestKey, List.find?_eq_none, Bool.not_eq_true]
  exact ⟨fun h k => h k (mem_allRegs k), fun h k _ => h k⟩

/-- In a rising list of keys that splits at a pressed key with none pressed before it, no lower key is pressed. -/
theorem key_false_of_lt {s : State} {as bs : List Reg} {j k : Reg} (hl : allRegs = as ++ k :: bs)
    (hn : ∀ a ∈ as, (!s.key[a]) = true) (hj : j < k) : s.key[j] = false := by
  have hp : allRegs.Pairwise (· < ·) := by decide
  have hmem := mem_allRegs j
  rw [hl] at hp hmem
  rcases List.mem_append.1 hmem with h | h
  · simpa using hn j h
  · rcases List.mem_cons.1 h with rfl | h
    · exact absurd hj (lt_irrefl _)
    · have hlt := (List.pairwise_cons.1 (List.pairwise_append.1 hp).2.1).1 j h
      exact absurd hj (not_lt.2 (le_of_lt hlt))

/-- The lowest pressed key is pressed, and no lower one is. -/
theorem lowestKey_some (s : State) (k : Reg) :
    lowestKey s = some k ↔ s.key[k] = true ∧ ∀ j : Fin 16, j < k → s.key[j] = false := by
  have found : ∀ j : Reg, lowestKey s = some j → s.key[j] = true ∧ ∀ i : Fin 16, i < j → s.key[i] = false := by
    intro j h
    obtain ⟨hj, as, bs, hl, hn⟩ := List.find?_eq_some_iff_append.1 h
    exact ⟨hj, fun i hi => key_false_of_lt hl hn hi⟩
  refine ⟨found k, fun ⟨hk, hlow⟩ => ?_⟩
  cases hf : lowestKey s with
  | none => rw [(lowestKey_none s).1 hf k] at hk; cases hk
  | some j =>
    obtain ⟨hj, hj'⟩ := found j hf
    rcases lt_trichotomy j k with h | h | h
    · rw [hlow j h] at hj; cases hj
    · rw [h]
    · rw [hj' k h] at hk; cases hk

/-! ### Timer step -/

/-- R176, R177: the timer step as one update. -/
theorem timerStep_eq (s : State) : timerStep s = { s with
    dt := if s.dt = 0 then 0 else s.dt - 1
    st := if s.st = 0 then 0 else s.st - 1
    beep := s.beep || s.st == 1 } := rfl

/-- A timer counts down and stops at 0. -/
theorem countdown_toNat (b : Byte) : (if b = 0 then 0 else b - 1 : Byte).toNat = b.toNat - 1 := by
  split
  · rename_i h
    simp [h]
  · rename_i h
    have : b.toNat ≠ 0 := fun h0 => h (BitVec.eq_of_toNat_eq h0)
    rw [BitVec.toNat_sub_of_le (by rw [BitVec.le_def]; simp; omega)]
    rfl

end Sys2Proof.Machine
end

