-- ==== Sys2Proof/Laws/Display.lean ====
section
/-! SUPPORT. The framebuffer: a pixel after a write, where a target lands, and what drawing a whole sprite does to each pixel
and to the collision flag. -/

namespace Sys2Proof.Machine

/-! ### One pixel -/

theorem pixel_setPixel (f : Frame) (x x' : Fin 64) (y y' : Fin 32) (b : Bool) :
    pixel (setPixel f x y b) x' y' = if x' = x ∧ y' = y then b else pixel f x' y' := by
  by_cases hx : x' = x
  · subst hx
    by_cases hy : y' = y
    · subst hy; simp [pixel, setPixel]
    · have : ¬ (y.val = y'.val) := fun h => hy (Fin.ext h.symm)
      simp [pixel, setPixel, hy, this]
  · have : ¬ (x.val = x'.val) := fun h => hx (Fin.ext h.symm)
    simp [pixel, setPixel, hx, this]

@[simp] theorem pixel_blankFrame (x : Fin 64) (y : Fin 32) : pixel blankFrame x y = false := by
  simp [pixel, blankFrame]

/-- Framebuffers with the same pixels are the same. -/
theorem frame_ext {f g : Frame} (h : ∀ x y, pixel f x y = pixel g x y) : f = g := by
  apply Vector.ext
  intro x hx
  apply Vector.ext
  intro y hy
  exact h ⟨x, hx⟩ ⟨y, hy⟩

/-- R144: where a target lands. -/
theorem place_eq_some (edge : DrawEdge) (x y : Nat) (px : Fin 64) (py : Fin 32) :
    place edge x y = some (px, py) ↔
      (x = px.val ∧ y = py.val) ∨
      (edge = .wrap ∧ ¬ (x < 64 ∧ y < 32) ∧ x % 64 = px.val ∧ y % 32 = py.val) := by
  have hx := px.isLt
  have hy := py.isLt
  unfold place
  split
  · rename_i h
    simp only [Option.some.injEq, Prod.mk.injEq, Fin.ext_iff, h, and_self, not_true_eq_false, false_and, and_false, or_false]
  · rename_i h
    cases edge <;> simp [Fin.ext_iff, h]
    · omega
    · omega

/-! ### A sprite as the list of its targets -/

/-- The targets of a row byte's set bits, in order. -/
def rowTargets (x y : Nat) (b : Byte) (cols : List Nat) : List (Nat × Nat) :=
  (cols.filter fun col => b.getLsbD (7 - col)).map fun col => (x + col, y)

/-- The targets of a sprite's set bits, in order. -/
def spriteTargets (x y : Nat) : List Byte → List (Nat × Nat)
  | [] => []
  | b :: bs => rowTargets x y b [0, 1, 2, 3, 4, 5, 6, 7] ++ spriteTargets x (y + 1) bs

theorem drawCols_eq (edge : DrawEdge) (x y : Nat) (b : Byte) (cols : List Nat) (c : Canvas) :
    drawCols edge x y b cols c = (rowTargets x y b cols).foldl (fun c t => drawBit edge t.1 t.2 c) c := by
  induction cols generalizing c with
  | nil => rfl
  | cons col cols ih =>
    rw [drawCols, ih]
    by_cases h : b.getLsbD (7 - col) <;> simp [rowTargets, h]

theorem drawRows_eq (edge : DrawEdge) (x y : Nat) (bs : List Byte) (c : Canvas) :
    drawRows edge x y bs c = (spriteTargets x y bs).foldl (fun c t => drawBit edge t.1 t.2 c) c := by
  induction bs generalizing y c with
  | nil => rfl
  | cons b bs ih => rw [drawRows, ih, spriteTargets, List.foldl_append, drawCols_eq]

theorem mem_spriteTargets (x y : Nat) (bs : List Byte) (t : Nat × Nat) :
    t ∈ spriteTargets x y bs ↔
      ∃ r, ∃ h : r < bs.length, ∃ col, col < 8 ∧ bs[r].getLsbD (7 - col) = true ∧ t = (x + col, y + r) := by
  induction bs generalizing y with
  | nil => simp [spriteTargets]
  | cons b bs ih =>
    have hcols : ∀ col, col ∈ [0, 1, 2, 3, 4, 5, 6, 7] ↔ col < 8 := by
      intro col; simp only [List.mem_cons, List.not_mem_nil, or_false]; omega
    rw [spriteTargets, List.mem_append, ih]
    constructor
    · rintro (h | ⟨r, hr, col, hc, hb, rfl⟩)
      · obtain ⟨col, hcol, rfl⟩ := List.mem_map.1 h
        obtain ⟨hcol, hb⟩ := List.mem_filter.1 hcol
        exact ⟨0, by simp, col, (hcols col).1 hcol, by simpa using hb, by simp⟩
      · exact ⟨r + 1, by simpa using hr, col, hc, by simpa using hb, by simp; omega⟩
    · rintro ⟨r, hr, col, hc, hb, rfl⟩
      cases r with
      | zero => exact .inl (List.mem_map.2 ⟨col, List.mem_filter.2 ⟨(hcols col).2 hc, by simpa using hb⟩, by simp⟩)
      | succ r => exact .inr ⟨r, by simpa using hr, col, hc, by simpa using hb, by simp; omega⟩

theorem nodup_spriteTargets (x y : Nat) (bs : List Byte) : (spriteTargets x y bs).Nodup := by
  induction bs generalizing y with
  | nil => simp [spriteTargets]
  | cons b bs ih =>
    rw [spriteTargets, List.nodup_append]
    refine ⟨?_, ih (y + 1), ?_⟩
    · exact ((by decide : [0, 1, 2, 3, 4, 5, 6, 7].Nodup).filter _).map fun i j h => by simpa using h
    · rintro t ht u hu rfl
      obtain ⟨col, -, rfl⟩ := List.mem_map.1 ht
      obtain ⟨r, -, col', -, -, h⟩ := (mem_spriteTargets _ _ _ _).1 hu
      simp only [Prod.mk.injEq] at h
      omega

/-! ### Toggling a list of pixels -/

/-- Toggling pixels one after the other, none of them twice: each listed pixel is inverted, and the flag says whether one of
them was set. -/
theorem foldl_toggle (edge : DrawEdge) (ts : List (Nat × Nat)) (c : Canvas)
    (hd : ts.Pairwise fun t u => ∀ q, place edge t.1 t.2 = some q → place edge u.1 u.2 ≠ some q) :
    (∀ q : Fin 64 × Fin 32, pixel (ts.foldl (fun c t => drawBit edge t.1 t.2 c) c).1 q.1 q.2 =
      (pixel c.1 q.1 q.2 ^^ decide (∃ t ∈ ts, place edge t.1 t.2 = some q))) ∧
    ((ts.foldl (fun c t => drawBit edge t.1 t.2 c) c).2 = true ↔
      c.2 = true ∨ ∃ t ∈ ts, ∃ q, place edge t.1 t.2 = some q ∧ pixel c.1 q.1 q.2 = true) := by
  induction ts generalizing c with
  | nil => simp
  | cons t ts ih =>
    obtain ⟨ht, hts⟩ := List.pairwise_cons.1 hd
    obtain ⟨ihp, ihf⟩ := ih (drawBit edge t.1 t.2 c) hts
    rw [List.foldl_cons]
    cases hp : place edge t.1 t.2 with
    | none =>
      have hc : drawBit edge t.1 t.2 c = c := by simp [drawBit, hp]
      rw [hc] at ihp ihf ⊢
      refine ⟨fun q => ?_, ?_⟩
      · simp [ihp q, hp]
      · simp [ihf, hp]
    | some p =>
      obtain ⟨px, py⟩ := p
      have hfree : ∀ u ∈ ts, place edge u.1 u.2 ≠ some (px, py) := fun u hu => ht u hu _ hp
      have hc1 : (drawBit edge t.1 t.2 c).1 = setPixel c.1 px py (!pixel c.1 px py) := by simp [drawBit, hp]
      have hc2 : (drawBit edge t.1 t.2 c).2 = (c.2 || pixel c.1 px py) := by simp [drawBit, hp]
      rw [hc1] at ihp ihf
      rw [hc2] at ihf
      refine ⟨fun q => ?_, ?_⟩
      · rw [ihp q, pixel_setPixel]
        by_cases hq : q = (px, py)
        · subst hq
          have hno : ¬ ∃ t ∈ ts, place edge t.1 t.2 = some (px, py) := fun ⟨u, hu, hpu⟩ => hfree u hu hpu
          simp [hp, hno]
        · have hq' : ¬ (q.1 = px ∧ q.2 = py) := fun h => hq (Prod.ext h.1 h.2)
          have hq'' : (px, py) ≠ q := fun h => hq h.symm
          simp [hp, hq', hq'']
      · rw [ihf]
        constructor
        · rintro (h | ⟨u, hu, q, hpu, hq⟩)
          · rcases Bool.or_eq_true_iff.1 h with h | h
            · exact .inl h
            · exact .inr ⟨t, by simp, (px, py), hp, h⟩
          · have hne : ¬ (q.1 = px ∧ q.2 = py) := fun h => hfree u hu (by rw [hpu]; exact congrArg some (Prod.ext h.1 h.2))
            rw [pixel_setPixel, if_neg hne] at hq
            exact .inr ⟨u, List.mem_cons_of_mem _ hu, q, hpu, hq⟩
        · rintro (h | ⟨u, hu, q, hpu, hq⟩)
          · exact .inl (by simp [h])
          · rcases List.mem_cons.1 hu with rfl | hu
            · rw [hp] at hpu
              cases hpu
              exact .inl (by simp [hq])
            · have hne : ¬ (q.1 = px ∧ q.2 = py) :=
                fun h => hfree u hu (by rw [hpu]; exact congrArg some (Prod.ext h.1 h.2))
              exact .inr ⟨u, hu, q, hpu, by rw [pixel_setPixel, if_neg hne]; exact hq⟩

/-- R144, R145: two bits of one sprite never land on the same pixel, under CLIP or WRAP, because a sprite has at most 8
columns and 32 rows. -/
theorem pairwise_spriteTargets (edge : DrawEdge) (x y : Nat) {bs : List Byte}
    (hl : bs.length ≤ 32) :
    (spriteTargets x y bs).Pairwise fun t u => ∀ q, place edge t.1 t.2 = some q → place edge u.1 u.2 ≠ some q := by
  refine List.Pairwise.imp_of_mem ?_ (nodup_spriteTargets x y bs)
  rintro t u ht hu hne ⟨px, py⟩ hp hq
  obtain ⟨r, hr, col, hc, -, rfl⟩ := (mem_spriteTargets _ _ _ _).1 ht
  obtain ⟨r', hr', col', hc', -, rfl⟩ := (mem_spriteTargets _ _ _ _).1 hu
  rw [place_eq_some] at hp hq
  apply hne
  simp only [Prod.mk.injEq] at hp hq ⊢
  omega

/-- A set bit of the sprite `bs` drawn at `(x, y)` lands on the pixel `q` (R144, R145). -/
def Lands (edge : DrawEdge) (x y : Nat) (bs : List Byte) (q : Fin 64 × Fin 32) : Prop :=
  ∃ r, ∃ h : r < bs.length, ∃ col, col < 8 ∧ bs[r].getLsbD (7 - col) = true ∧ place edge (x + col) (y + r) = some q

theorem lands_iff_target (edge : DrawEdge) (x y : Nat) (bs : List Byte) (q : Fin 64 × Fin 32) :
    Lands edge x y bs q ↔ ∃ t ∈ spriteTargets x y bs, place edge t.1 t.2 = some q := by
  constructor
  · rintro ⟨r, hr, col, hc, hb, hq⟩
    exact ⟨_, (mem_spriteTargets _ _ _ _).2 ⟨r, hr, col, hc, hb, rfl⟩, hq⟩
  · rintro ⟨t, ht, hq⟩
    obtain ⟨r, hr, col, hc, hb, rfl⟩ := (mem_spriteTargets _ _ _ _).1 ht
    exact ⟨r, hr, col, hc, hb, hq⟩

/-- R145, for a whole sprite of at most 32 rows: a pixel is inverted if a set bit lands on it, it is unchanged if none does,
and the flag is raised exactly if a bit lands on a set pixel. -/
theorem drawRows_spec (edge : DrawEdge) (x y : Nat) {bs : List Byte} (hl : bs.length ≤ 32) (f : Frame) :
    (∀ px py, Lands edge x y bs (px, py) →
      pixel (drawRows edge x y bs (f, false)).1 px py = !pixel f px py) ∧
    (∀ px py, ¬ Lands edge x y bs (px, py) → pixel (drawRows edge x y bs (f, false)).1 px py = pixel f px py) ∧
    ((drawRows edge x y bs (f, false)).2 = true ↔ ∃ px py, pixel f px py = true ∧ Lands edge x y bs (px, py)) := by
  obtain ⟨hp, hf⟩ := foldl_toggle edge _ (f, false) (pairwise_spriteTargets edge x y hl)
  rw [drawRows_eq]
  refine ⟨fun px py h => ?_, fun px py h => ?_, ?_⟩
  · rw [hp (px, py)]
    simp [(lands_iff_target _ _ _ _ _).1 h]
  · rw [hp (px, py), decide_eq_false (fun h' => h ((lands_iff_target _ _ _ _ _).2 h'))]
    simp
  · rw [hf]
    simp only [Bool.false_eq_true, false_or]
    constructor
    · rintro ⟨t, ht, ⟨px, py⟩, hq, hpx⟩
      exact ⟨px, py, hpx, (lands_iff_target _ _ _ _ _).2 ⟨t, ht, hq⟩⟩
    · rintro ⟨px, py, hpx, h⟩
      obtain ⟨t, ht, hq⟩ := (lands_iff_target _ _ _ _ _).1 h
      exact ⟨t, ht, (px, py), hq, hpx⟩

/-- A sprite of DRW has at most 15 rows. -/
theorem spriteBytes_length (n : Nibble) (s : State) : (spriteBytes n s).length = n.toNat := by
  simp [spriteBytes, countOperand]

theorem spriteBytes_get (n : Nibble) (s : State) (r : Nat) (h : r < (spriteBytes n s).length) :
    (spriteBytes n s)[r] = readByte (s.i.toNat + r) s := by
  simp [spriteBytes, indexBase]

end Sys2Proof.Machine
end

