-- ==== Sys2Proof/Laws/PerInstr.lean ====
section
/-! SUPPORT. Statements about every instruction as syntax, one lemma per constructor.

`TableRow`: the word of an instruction belongs to its row of spec/opcode_table.json (30_encoding.md R76, R84). -/

namespace Sys2Proof

theorem packNNN_and_mask (c : Nibble) (nnn : Addr) : packNNN c nnn &&& 0xF000#16 = packNNN c 0 := by
  show (c ++ nnn) &&& ((0xF#4) ++ (0#12)) = (c ++ (0 : Addr))
  rw [BitVec.and_append]
  congr 1
  · revert c; decide
  · simp

theorem packXNN_and_class (c : Nibble) (x : Reg) (nn : Byte) : packXNN c x nn &&& 0xF000#16 = packNNN c 0 :=
  packNNN_and_mask c _

theorem packXYN_and_class (c : Nibble) (x y : Reg) (n : Nibble) : packXYN c x y n &&& 0xF000#16 = packNNN c 0 :=
  packNNN_and_mask c _

theorem packXNN_and_low (c : Nibble) (x : Reg) (nn : Byte) : packXNN c x nn &&& 0xF0FF#16 = packXNN c 0 nn := by
  show (c ++ ((BitVec.ofFin x : Nibble) ++ nn)) &&& ((0xF#4) ++ ((0x0#4) ++ (0xFF#8))) = (c ++ ((0 : Nibble) ++ nn))
  rw [BitVec.and_append, BitVec.and_append]
  congr 1
  · revert c; decide
  · congr 1
    · simp
    · exact BitVec.and_allOnes

theorem packXYN_and_low (c : Nibble) (x y : Reg) (n : Nibble) : packXYN c x y n &&& 0xF00F#16 = packXYN c 0 0 n := by
  show (c ++ ((BitVec.ofFin x : Nibble) ++ ((BitVec.ofFin y : Nibble) ++ n))) &&& ((0xF#4) ++ ((0x0#4) ++ ((0x0#4) ++ (0xF#4)))) =
    (c ++ ((0 : Nibble) ++ ((0 : Nibble) ++ n)))
  rw [BitVec.and_append, BitVec.and_append, BitVec.and_append]
  congr 1
  · revert c; decide
  · congr 1
    · simp
    · congr 1
      · simp
      · exact BitVec.and_allOnes

end Sys2Proof

namespace Sys2Proof.Laws.TableRow

/-- The word of `i` belongs to `i`'s row. -/
def Statement (i : Instr) : Prop :=
  encode i &&& (tableRow i).2 = (tableRow i).1

theorem cls : Statement .cls :=
  rfl

theorem ret : Statement .ret :=
  rfl

theorem jp (nnn : Addr) : Statement (.jp nnn) :=
  (packNNN_and_mask _ _).trans rfl

theorem call (nnn : Addr) : Statement (.call nnn) :=
  (packNNN_and_mask _ _).trans rfl

theorem seImm (x : Reg) (nn : Byte) : Statement (.seImm x nn) :=
  (packXNN_and_class _ _ _).trans rfl

theorem sneImm (x : Reg) (nn : Byte) : Statement (.sneImm x nn) :=
  (packXNN_and_class _ _ _).trans rfl

theorem seReg (x y : Reg) : Statement (.seReg x y) :=
  (packXYN_and_low _ _ _ _).trans rfl

theorem ldImm (x : Reg) (nn : Byte) : Statement (.ldImm x nn) :=
  (packXNN_and_class _ _ _).trans rfl

theorem addImm (x : Reg) (nn : Byte) : Statement (.addImm x nn) :=
  (packXNN_and_class _ _ _).trans rfl

theorem ldReg (x y : Reg) : Statement (.ldReg x y) :=
  (packXYN_and_low _ _ _ _).trans rfl

theorem or (x y : Reg) : Statement (.or x y) :=
  (packXYN_and_low _ _ _ _).trans rfl

theorem and (x y : Reg) : Statement (.and x y) :=
  (packXYN_and_low _ _ _ _).trans rfl

theorem xor (x y : Reg) : Statement (.xor x y) :=
  (packXYN_and_low _ _ _ _).trans rfl

theorem addReg (x y : Reg) : Statement (.addReg x y) :=
  (packXYN_and_low _ _ _ _).trans rfl

theorem sub (x y : Reg) : Statement (.sub x y) :=
  (packXYN_and_low _ _ _ _).trans rfl

theorem shr (x y : Reg) : Statement (.shr x y) :=
  (packXYN_and_low _ _ _ _).trans rfl

theorem subn (x y : Reg) : Statement (.subn x y) :=
  (packXYN_and_low _ _ _ _).trans rfl

theorem shl (x y : Reg) : Statement (.shl x y) :=
  (packXYN_and_low _ _ _ _).trans rfl

theorem sneReg (x y : Reg) : Statement (.sneReg x y) :=
  (packXYN_and_low _ _ _ _).trans rfl

theorem ldI (nnn : Addr) : Statement (.ldI nnn) :=
  (packNNN_and_mask _ _).trans rfl

theorem jpV0 (nnn : Addr) : Statement (.jpV0 nnn) :=
  (packNNN_and_mask _ _).trans rfl

theorem rnd (x : Reg) (nn : Byte) : Statement (.rnd x nn) :=
  (packXNN_and_class _ _ _).trans rfl

theorem drw (x y : Reg) (n : Nibble) : Statement (.drw x y n) :=
  (packXYN_and_class _ _ _ _).trans rfl

theorem skp (x : Reg) : Statement (.skp x) :=
  (packXNN_and_low _ _ _).trans rfl

theorem sknp (x : Reg) : Statement (.sknp x) :=
  (packXNN_and_low _ _ _).trans rfl

theorem ldVxDt (x : Reg) : Statement (.ldVxDt x) :=
  (packXNN_and_low _ _ _).trans rfl

theorem ldVxK (x : Reg) : Statement (.ldVxK x) :=
  (packXNN_and_low _ _ _).trans rfl

theorem ldDt (x : Reg) : Statement (.ldDt x) :=
  (packXNN_and_low _ _ _).trans rfl

theorem ldSt (x : Reg) : Statement (.ldSt x) :=
  (packXNN_and_low _ _ _).trans rfl

theorem addI (x : Reg) : Statement (.addI x) :=
  (packXNN_and_low _ _ _).trans rfl

theorem ldF (x : Reg) : Statement (.ldF x) :=
  (packXNN_and_low _ _ _).trans rfl

theorem ldB (x : Reg) : Statement (.ldB x) :=
  (packXNN_and_low _ _ _).trans rfl

theorem ldMemVx (x : Reg) : Statement (.ldMemVx x) :=
  (packXNN_and_low _ _ _).trans rfl

theorem ldVxMem (x : Reg) : Statement (.ldVxMem x) :=
  (packXNN_and_low _ _ _).trans rfl

end Sys2Proof.Laws.TableRow

namespace Sys2Proof

/-- R84: the word of every instruction belongs to its row. -/
theorem encode_in_row : ∀ i : Instr, encode i &&& (tableRow i).2 = (tableRow i).1
  | .cls => Laws.TableRow.cls
  | .ret => Laws.TableRow.ret
  | .jp nnn => Laws.TableRow.jp nnn
  | .call nnn => Laws.TableRow.call nnn
  | .seImm x nn => Laws.TableRow.seImm x nn
  | .sneImm x nn => Laws.TableRow.sneImm x nn
  | .seReg x y => Laws.TableRow.seReg x y
  | .ldImm x nn => Laws.TableRow.ldImm x nn
  | .addImm x nn => Laws.TableRow.addImm x nn
  | .ldReg x y => Laws.TableRow.ldReg x y
  | .or x y => Laws.TableRow.or x y
  | .and x y => Laws.TableRow.and x y
  | .xor x y => Laws.TableRow.xor x y
  | .addReg x y => Laws.TableRow.addReg x y
  | .sub x y => Laws.TableRow.sub x y
  | .shr x y => Laws.TableRow.shr x y
  | .subn x y => Laws.TableRow.subn x y
  | .shl x y => Laws.TableRow.shl x y
  | .sneReg x y => Laws.TableRow.sneReg x y
  | .ldI nnn => Laws.TableRow.ldI nnn
  | .jpV0 nnn => Laws.TableRow.jpV0 nnn
  | .rnd x nn => Laws.TableRow.rnd x nn
  | .drw x y n => Laws.TableRow.drw x y n
  | .skp x => Laws.TableRow.skp x
  | .sknp x => Laws.TableRow.sknp x
  | .ldVxDt x => Laws.TableRow.ldVxDt x
  | .ldVxK x => Laws.TableRow.ldVxK x
  | .ldDt x => Laws.TableRow.ldDt x
  | .ldSt x => Laws.TableRow.ldSt x
  | .addI x => Laws.TableRow.addI x
  | .ldF x => Laws.TableRow.ldF x
  | .ldB x => Laws.TableRow.ldB x
  | .ldMemVx x => Laws.TableRow.ldMemVx x
  | .ldVxMem x => Laws.TableRow.ldVxMem x

end Sys2Proof
end

