-- ==== Sys2Proof/Laws/Step.lean ====
section
/-! SUPPORT. What one instruction and one tick can do, said once. -/

namespace Sys2Proof.Machine

/-! ### One instruction -/

/-- What every instruction keeps, and the only way it can touch RUN: a fatal error. -/
structure Kept (s t : State) : Prop where
  cfg : t.cfg = s.cfg
  key : t.key = s.key
  beep : t.beep = s.beep
  mem : Memory.wf s.cfg s.mem → Memory.wf t.cfg t.mem
  run : (t.run = s.run ∧ t.outcome = s.outcome) ∨ ∃ k, t.run = .halted ∧ t.outcome = some (.fatal k)

theorem kept_of_same {s t : State} (hc : t.cfg = s.cfg) (hk : t.key = s.key) (hb : t.beep = s.beep) (hm : t.mem = s.mem)
    (hr : t.run = s.run) (ho : t.outcome = s.outcome) : Kept s t :=
  ⟨hc, hk, hb, fun h => by rw [hc, hm]; exact h, .inl ⟨hr, ho⟩⟩

theorem kept_fatal (k : FatalKind) (s : State) : Kept s ((s.setRun .halted).setOutcome (.fatal k)) :=
  ⟨rfl, rfl, rfl, fun h => h, .inr ⟨k, rfl, rfl⟩⟩

theorem kept_writeBytes (a : Nat) (bs : List Byte) (s : State) : Kept s (writeBytes a bs s) := by
  have h := writeBytes_eq a bs s
  refine ⟨?_, ?_, ?_, fun hw => writeBytes_wf hw a bs, .inl ⟨?_, ?_⟩⟩ <;> rw [h] <;> rfl

theorem kept_loadRegs (base : Nat) (ks : List Reg) (s : State) : Kept s (loadRegs base ks s) := by
  have h := loadRegs_eq base ks s
  apply kept_of_same <;> rw [h]

/-- Every instruction answers a next state that keeps what `Kept` lists: none faults, none is refused. -/
theorem exec_next (i : Instr) (s : State) : ∃ t, exec i s = .next t ∧ Kept s t := by
  cases i
  case ret =>
    simp only [exec, execRet]
    rcases popThen_cases (fun target t => .next (t.setPc target)) s with ⟨h, e⟩ | ⟨h, e⟩ <;> rw [e]
    · exact ⟨_, rfl, kept_of_same rfl rfl rfl rfl rfl rfl⟩
    · exact ⟨_, rfl, kept_fatal _ s⟩
  case call nnn =>
    simp only [exec, execCall]
    rcases pushThen_cases s.pc (fun t => .next (t.setPc (addrOperand nnn))) s with ⟨h, e⟩ | ⟨h, e⟩ <;> rw [e]
    · exact ⟨_, rfl, kept_of_same rfl rfl rfl rfl rfl rfl⟩
    · exact ⟨_, rfl, kept_fatal _ s⟩
  case ldVxK x =>
    simp only [exec]
    unfold execLdVxK
    split
    · exact ⟨_, rfl, kept_of_same rfl rfl rfl rfl rfl rfl⟩
    · exact ⟨_, rfl, kept_of_same rfl rfl rfl rfl rfl rfl⟩
  case ldB x => exact ⟨_, rfl, kept_writeBytes _ _ s⟩
  case ldMemVx x => exact ⟨_, rfl, kept_writeBytes _ _ s⟩
  case ldVxMem x => exact ⟨_, rfl, kept_loadRegs _ _ s⟩
  case seImm x nn => exact ⟨_, rfl, by rw [skipIf_eq]; exact kept_of_same rfl rfl rfl rfl rfl rfl⟩
  case sneImm x nn => exact ⟨_, rfl, by rw [skipIf_eq]; exact kept_of_same rfl rfl rfl rfl rfl rfl⟩
  case seReg x y => exact ⟨_, rfl, by rw [skipIf_eq]; exact kept_of_same rfl rfl rfl rfl rfl rfl⟩
  case sneReg x y => exact ⟨_, rfl, by rw [skipIf_eq]; exact kept_of_same rfl rfl rfl rfl rfl rfl⟩
  case skp x => exact ⟨_, rfl, by rw [skipIf_eq]; exact kept_of_same rfl rfl rfl rfl rfl rfl⟩
  case sknp x => exact ⟨_, rfl, by rw [skipIf_eq]; exact kept_of_same rfl rfl rfl rfl rfl rfl⟩
  all_goals exact ⟨_, rfl, kept_of_same rfl rfl rfl rfl rfl rfl⟩

/-! ### One tick -/

theorem finishTick_halted {s : State} (h : s.run = .halted) : finishTick s = s := by
  simp [finishTick, h]

theorem finishTick_running {s : State} (h : s.run = .running) : finishTick s = (timerStep s).setOutcome .normal := by
  simp [finishTick, h]

theorem step_paused {s : State} (h : s.run = .paused) : step s = .next (s.setOutcome .paused) := by
  simp [step, tick, h]

theorem step_halted {s : State} (h : s.run = .halted) : step s = .next (s.setOutcome .halted) := by
  simp [step, tick, h]

theorem step_running {s : State} (h : s.run = .running) : step s = runFetched (fetchWord s) (advancePc s) := by
  simp [step, tick, h]

/-- Everything a step can do. -/
theorem step_cases (s : State) :
    (s.run = .paused ∧ step s = .next (s.setOutcome .paused)) ∨
    (s.run = .halted ∧ step s = .next (s.setOutcome .halted)) ∨
    (s.run = .running ∧ ∃ e, decodeWord (fetchWord s) = .error e ∧
      step s = .next (((advancePc s).setRun .halted).setOutcome (.fatal .unknownOpcode))) ∨
    (s.run = .running ∧ ∃ i t, decodeWord (fetchWord s) = .ok i ∧ exec i (advancePc s) = .next t ∧
      Kept (advancePc s) t ∧ step s = .next (finishTick t)) := by
  cases h : s.run with
  | paused => exact .inl ⟨rfl, step_paused h⟩
  | halted => exact .inr (.inl ⟨rfl, step_halted h⟩)
  | running =>
    refine .inr (.inr ?_)
    rw [step_running h]
    cases hd : decodeWord (fetchWord s) with
    | error e => exact .inl ⟨rfl, e, rfl, by simp [runFetched, hd, raiseFatal]⟩
    | ok i =>
      obtain ⟨t, ht, hk⟩ := exec_next i (advancePc s)
      exact .inr ⟨rfl, i, t, rfl, ht, hk, by simp [runFetched, hd, ht, afterExec]⟩

end Sys2Proof.Machine
end

