-- ==== Sys2Proof/Tests/Slice0.lean ====
section
/-! SUPPORT. Tests, each of one operation on a small state. Expected results are the spec's vectors (95_test_vectors.md, named
by their number) or bits written out from 30_encoding.md R76; none is the model's own answer. The witnesses at the end show
that the hypotheses of the obligations of Certificates/Slice0 can be met, clause by clause. -/

namespace Sys2Proof.Tests

open Sys2Proof Sys2Proof.Machine

/-! ### Helpers -/

/-- What a next state is tested for; a stop fails the test. -/
def next (r : Result) (p : State → Bool) : Bool :=
  match r with
  | .next t => p t
  | _ => false

/-- One tick of the word `w`, placed where `s` fetches next. -/
def after (w : Nat) (s : State) (p : State → Bool) : Bool :=
  next (step (s.withFetchWord 16 w)) p

/-- The construction state with `V1 = a`, `V2 = b` and `VF = 0xAA` (section 2.3 of the vectors). -/
def regs12 (a b : Byte) : State :=
  ((State.reset.setV 1 a).setV 2 b).setV 15 0xAA

/-- A framebuffer with these pixels set. -/
def lit (ps : List (Fin 64 × Fin 32)) : Frame :=
  ps.foldl (fun f p => setPixel f p.1 p.2 true) blankFrame

/-- The pixels of `on` are set and those of `off` are clear. -/
def shows (f : Frame) (on off : List (Fin 64 × Fin 32)) : Bool :=
  on.all (fun p => pixel f p.1 p.2) && off.all (fun p => !pixel f p.1 p.2)

/-- Sprite bytes at I = 0x300, the coordinates in V0 and V1, and a framebuffer (section 2.5 of the vectors). -/
def sprite (bytes : List Byte) (x y : Byte) (f : Frame) : State :=
  writeBytes 0x300 bytes ((((State.reset.setI 0x300).setV 0 x).setV 1 y).setFb f)

/-- That state with DRAW_EDGE = WRAP. -/
def wrapping (s : State) : State :=
  { s with cfg := ⟨0x50, .wrap, 0⟩ }

/-! ### Decoding: one word of each row, written out from R76 -/

theorem test_decode_control :
    decodeWord 0b0000000011101110#16 = .ok .ret ∧ decodeWord 0b0001101010111100#16 = .ok (.jp 0xABC#12) ∧
    decodeWord 0b0010101010111100#16 = .ok (.call 0xABC#12) ∧ decodeWord 0b0011001101000010#16 = .ok (.seImm 3 0x42#8) ∧
    decodeWord 0b0100001101000010#16 = .ok (.sneImm 3 0x42#8) ∧ decodeWord 0b0101101010110000#16 = .ok (.seReg 10 11) ∧
    decodeWord 0b1001101010110000#16 = .ok (.sneReg 10 11) ∧ decodeWord 0b1011001100000001#16 = .ok (.jpV0 0x301#12) :=
  ⟨rfl, rfl, rfl, rfl, rfl, rfl, rfl, rfl⟩

theorem test_decode_loads :
    decodeWord 0b0110000101010101#16 = .ok (.ldImm 1 0x55#8) ∧ decodeWord 0b0111000110000010#16 = .ok (.addImm 1 0x82#8) ∧
    decodeWord 0b1000000100100000#16 = .ok (.ldReg 1 2) ∧ decodeWord 0b1100001100001111#16 = .ok (.rnd 3 0x0F#8) :=
  ⟨rfl, rfl, rfl, rfl⟩

theorem test_decode_alu :
    decodeWord 0b1000000100100001#16 = .ok (.or 1 2) ∧ decodeWord 0b1000000100100010#16 = .ok (.and 1 2) ∧
    decodeWord 0b1000000100100011#16 = .ok (.xor 1 2) ∧ decodeWord 0b1000000100100100#16 = .ok (.addReg 1 2) ∧
    decodeWord 0b1000000100100101#16 = .ok (.sub 1 2) ∧ decodeWord 0b1000000111110110#16 = .ok (.shr 1 15) ∧
    decodeWord 0b1000000100100111#16 = .ok (.subn 1 2) ∧ decodeWord 0b1000000100101110#16 = .ok (.shl 1 2) :=
  ⟨rfl, rfl, rfl, rfl, rfl, rfl, rfl, rfl⟩

theorem test_decode_index_memory :
    decodeWord 0b1010001100000000#16 = .ok (.ldI 0x300#12) ∧ decodeWord 0b1111001000011110#16 = .ok (.addI 2) ∧
    decodeWord 0b1111000000101001#16 = .ok (.ldF 0) ∧ decodeWord 0b1111001100110011#16 = .ok (.ldB 3) ∧
    decodeWord 0b1111001001010101#16 = .ok (.ldMemVx 2) ∧ decodeWord 0b1111001001100101#16 = .ok (.ldVxMem 2) :=
  ⟨rfl, rfl, rfl, rfl, rfl, rfl⟩

theorem test_decode_display :
    decodeWord 0b0000000011100000#16 = .ok .cls ∧ decodeWord 0b1101000100101111#16 = .ok (.drw 1 2 0xF#4) :=
  ⟨rfl, rfl⟩

theorem test_decode_keys_timers :
    decodeWord 0b1110001010011110#16 = .ok (.skp 2) ∧ decodeWord 0b1110001010100001#16 = .ok (.sknp 2) ∧
    decodeWord 0b1111001100000111#16 = .ok (.ldVxDt 3) ∧ decodeWord 0b1111000000001010#16 = .ok (.ldVxK 0) ∧
    decodeWord 0b1111001100010101#16 = .ok (.ldDt 3) ∧ decodeWord 0b1111000000011000#16 = .ok (.ldSt 0) :=
  ⟨rfl, rfl, rfl, rfl, rfl, rfl⟩

/-- Vectors E4 to E10. -/
theorem test_decode_unknown :
    [0x0000#16, 0x0123, 0x5121, 0x9121, 0x8128, 0x812F, 0xE19F, 0xE1A0, 0xF100, 0xF166].all
      (fun w => decodeWord w == .error (.unknownOpcode w)) = true := by decide

/-- Vector S1. -/
theorem test_fields :
    fields 0xD12F#16 = ⟨0xD, 1, 2, 0xF, 0x2F, 0x12F⟩ ∧ fields 0x8AB4#16 = ⟨8, 10, 11, 4, 0xB4, 0xAB4⟩ := by decide

/-- R56, R71: the high byte first; one byte is no instruction. -/
theorem test_decode_bytes :
    decodeBytes [0x12, 0x34, 0x56] = .ok (.jp 0x234#12, [0x56]) ∧ decodeBytes [0x12] = .error .truncated :=
  ⟨rfl, rfl⟩

/-- R84: no two rows of R76 share a word, that is, the matches of any two rows differ in a bit that both masks hold. -/
theorem test_rows_disjoint :
    List.Pairwise (fun p q : Word × Word => (p.1 ^^^ q.1) &&& p.2 &&& q.2 ≠ 0)
      ([.cls, .ret, .jp 0, .call 0, .seImm 0 0, .sneImm 0 0, .seReg 0 0, .ldImm 0 0, .addImm 0 0, .ldReg 0 0, .or 0 0,
        .and 0 0, .xor 0 0, .addReg 0 0, .sub 0 0, .shr 0 0, .subn 0 0, .shl 0 0, .sneReg 0 0, .ldI 0, .jpV0 0, .rnd 0 0,
        .drw 0 0 0, .skp 0, .sknp 0, .ldVxDt 0, .ldVxK 0, .ldDt 0, .ldSt 0, .addI 0, .ldF 0, .ldB 0, .ldMemVx 0,
        .ldVxMem 0].map tableRow) := by decide

/-! ### The checks of WellFormed, each on an ill-formed term -/

theorem test_fields_nn_refused : Fields.wellFormed ⟨0xD, 1, 2, 0xF, 0x3F, 0x13F⟩ = false := by decide

theorem test_fields_nnn_refused : Fields.wellFormed ⟨0xD, 1, 2, 0xF, 0x2F, 0x22F⟩ = false := by decide

theorem test_font_base_refused : fontBaseAllowed 432 = true ∧ fontBaseAllowed 433 = false := by decide

/-- Vector T17. -/
theorem test_image_refused : imageFits 3584 = true ∧ imageFits 3585 = false := by decide

theorem test_number_refused : numberFits 12 4095 = true ∧ numberFits 12 4096 = false ∧ numberFits 8 256 = false := by decide

theorem test_assembler_refused :
    assembleLine .jp [.num 4096] = none ∧ assembleLine .se [.v 1, .num 256] = none ∧
    assembleLine .drw [.v 0, .v 1, .num 16] = none ∧ assembleLine .jp [.v 1, .num 5] = none ∧
    assembleItem (.db 256) = none := by decide

/-- Program P1's listing gives its image bytes. -/
theorem test_assemble_p1 :
    assemble [.line .ld [.v 0, .num 5], .line .ld [.v 1, .num 3], .line .add [.v 1, .v 0], .dw 0x1234, .db 7] =
      some [0x60, 0x05, 0x61, 0x03, 0x81, 0x04, 0x12, 0x34, 0x07] := by decide

/-! ### Fetch and control transfer (vectors E2, E3, E11, F1 to F14) -/

/-- E2's addresses with a load: the second byte of a fetch at 0x0FFF is at 0x000. -/
theorem test_fetch_wraps :
    after 0x6155 (State.reset.setPc 0x0FFF) (fun t =>
      t.pc == 0x1001 && reg 1 t == 0x55 && readByte 0xFFF t == 0x61 && readByte 0 t == 0x55) = true := by decide

/-- E3: PC wraps modulo 2^16. -/
theorem test_pc_wraps :
    after 0x6155 (State.reset.setPc 0xFFFE) (fun t => t.pc == 0 && readByte 0xFFE t == 0x61 && readByte 0xFFF t == 0x55) =
      true := by decide

/-- E4, E11. -/
theorem test_unknown_word_halts :
    after 0x0000 (State.reset.setDt 5) (fun t =>
      t.pc == 0x202 && t.dt == 5 && t.run == .halted && t.outcome == some (.fatal .unknownOpcode)) = true := by decide

/-- F1, F2. -/
theorem test_jp :
    (after 0x1234 State.reset (fun t => t.pc == 0x234) &&
      after 0x1200 State.reset (fun t => t.pc == 0x200 && t.run == .running)) = true := by decide

/-- F3. -/
theorem test_call :
    after 0x2ABC State.reset (fun t => t.stack[0] == 0x202 && t.sp == 1 && t.pc == 0xABC) = true := by decide

/-- F4. -/
theorem test_call_overflow :
    after 0x2ABC (State.reset.setSp 16) (fun t => t.outcome == some (.fatal .stackOverflow) && t.run == .halted &&
      t.sp == 16 && t.pc == 0x202 && t.stack == State.reset.stack) = true := by decide

/-- F5. -/
theorem test_ret :
    after 0x00EE ((State.reset.setStack 0 0x456).setSp 1) (fun t => t.sp == 0 && t.pc == 0x456 && t.stack[0] == 0x456) =
      true := by decide

/-- F6. -/
theorem test_ret_underflow :
    after 0x00EE State.reset (fun t => t.outcome == some (.fatal .stackUnderflow) && t.run == .halted && t.sp == 0 &&
      t.pc == 0x202) = true := by decide

/-- F7, F14. -/
theorem test_se_imm :
    (after 0x3342 (State.reset.setV 3 0x42) (fun t => t.pc == 0x204) &&
      after 0x3343 (State.reset.setV 3 0x42) (fun t => t.pc == 0x202) &&
      after 0x3300 (State.reset.setPc 0xFFFC) (fun t => t.pc == 0)) = true := by decide

/-- F8. -/
theorem test_sne_imm :
    (after 0x4342 (State.reset.setV 3 0x42) (fun t => t.pc == 0x202) &&
      after 0x4343 (State.reset.setV 3 0x42) (fun t => t.pc == 0x204)) = true := by decide

/-- F9, F10, F11. -/
theorem test_se_reg :
    (after 0x5120 (regs12 7 7) (fun t => t.pc == 0x204) && after 0x5120 (regs12 7 8) (fun t => t.pc == 0x202) &&
      after 0x5110 (regs12 7 8) (fun t => t.pc == 0x204)) = true := by decide

/-- F9, F10, F11. -/
theorem test_sne_reg :
    (after 0x9120 (regs12 7 7) (fun t => t.pc == 0x202) && after 0x9120 (regs12 7 8) (fun t => t.pc == 0x204) &&
      after 0x9110 (regs12 7 8) (fun t => t.pc == 0x202)) = true := by decide

/-- F12, F13. -/
theorem test_jp_v0 :
    (after 0xB300 (State.reset.setV 0 0x10) (fun t => t.pc == 0x310) &&
      after 0xBFFF (State.reset.setV 0 0xFF) (fun t => t.pc == 0x10FE)) = true := by decide

/-! ### Arithmetic (vectors A1 to A41) -/

/-- A1. -/
theorem test_ld_imm : after 0x6155 (regs12 0 0) (fun t => reg 1 t == 0x55 && reg 15 t == 0xAA) = true := by decide

/-- A2, A37. -/
theorem test_add_imm :
    (after 0x7102 (regs12 0xFF 0) (fun t => reg 1 t == 1 && reg 15 t == 0xAA) &&
      after 0x7F01 (State.reset.setV 15 0xFF) (fun t => reg 15 t == 0)) = true := by decide

/-- A4. -/
theorem test_ld_reg :
    after 0x8120 (regs12 0 0x33) (fun t => reg 1 t == 0x33 && reg 2 t == 0x33 && reg 15 t == 0xAA) = true := by decide

/-- A5. -/
theorem test_or : after 0x8121 (regs12 0xF0 0x0F) (fun t => reg 1 t == 0xFF && reg 15 t == 0xAA) = true := by decide

/-- A6. -/
theorem test_and : after 0x8122 (regs12 0xF0 0x3C) (fun t => reg 1 t == 0x30 && reg 15 t == 0xAA) = true := by decide

/-- A7, A8. -/
theorem test_xor :
    (after 0x8123 (regs12 0xF0 0x3C) (fun t => reg 1 t == 0xCC && reg 15 t == 0xAA) &&
      after 0x8113 (regs12 0x5A 0) (fun t => reg 1 t == 0)) = true := by decide

/-- A9, A10, A14. -/
theorem test_add_reg :
    (after 0x8124 (regs12 0xFF 1) (fun t => reg 1 t == 0 && reg 15 t == 1) &&
      after 0x8124 (regs12 0x80 0x7F) (fun t => reg 1 t == 0xFF && reg 15 t == 0) &&
      after 0x8114 (regs12 0x81 0) (fun t => reg 1 t == 2 && reg 15 t == 1)) = true := by decide

/-- A31, A32, A33: VF as the destination and as an operand. -/
theorem test_add_reg_vf :
    (after 0x8F14 ((State.reset.setV 15 0x10).setV 1 0x20) (fun t => reg 15 t == 0) &&
      after 0x8F14 ((State.reset.setV 15 0xFF).setV 1 2) (fun t => reg 15 t == 1) &&
      after 0x81F4 ((State.reset.setV 15 0xF5).setV 1 0x10) (fun t => reg 1 t == 5 && reg 15 t == 1)) = true := by decide

/-- A15, A16, A17. -/
theorem test_sub :
    (after 0x8125 (regs12 5 3) (fun t => reg 1 t == 2 && reg 15 t == 1) &&
      after 0x8125 (regs12 3 5) (fun t => reg 1 t == 0xFE && reg 15 t == 0) &&
      after 0x8125 (regs12 7 7) (fun t => reg 1 t == 0 && reg 15 t == 0)) = true := by decide

/-- A36. -/
theorem test_sub_vf :
    after 0x8F15 ((State.reset.setV 15 5).setV 1 3) (fun t => reg 15 t == 1) = true := by decide

/-- A20, A22. -/
theorem test_shr :
    (after 0x8126 (regs12 5 0x40) (fun t => reg 1 t == 2 && reg 2 t == 0x40 && reg 15 t == 1) &&
      after 0x81F6 (regs12 1 0) (fun t => reg 1 t == 0 && reg 15 t == 1)) = true := by decide

/-- A34. -/
theorem test_shr_vf : after 0x8F06 (State.reset.setV 15 3) (fun t => reg 15 t == 1) = true := by decide

/-- A23, A24, A25. -/
theorem test_subn :
    (after 0x8127 (regs12 3 5) (fun t => reg 1 t == 2 && reg 15 t == 1) &&
      after 0x8127 (regs12 5 3) (fun t => reg 1 t == 0xFE && reg 15 t == 0) &&
      after 0x8127 (regs12 7 7) (fun t => reg 1 t == 0 && reg 15 t == 0)) = true := by decide

/-- A27, A28. -/
theorem test_shl :
    (after 0x812E (regs12 0x81 0x40) (fun t => reg 1 t == 2 && reg 2 t == 0x40 && reg 15 t == 1) &&
      after 0x812E (regs12 0x40 0) (fun t => reg 1 t == 0x80 && reg 15 t == 0)) = true := by decide

/-- A35. -/
theorem test_shl_vf : after 0x8F0E (State.reset.setV 15 3) (fun t => reg 15 t == 0) = true := by decide

/-- A39, and R193: one byte of the source is taken whatever the mask is. -/
theorem test_rnd_zero_mask :
    (match exec (.rnd 3 0) State.reset with
      | .next t => (reg 3 t, t.draws)
      | _ => (1, 0)) = (0, 1) := by
  show (nextRandom State.reset &&& (0#8), 1) = _
  rw [BitVec.and_zero]
  rfl

/-- A38: should the draw be 0xB7, V3 is 0x07. -/
theorem test_rnd_mask (h : nextRandom State.reset = 0xB7) :
    (match exec (.rnd 3 0x0F) State.reset with
      | .next t => reg 3 t
      | _ => 0) = 0x07 := by
  show nextRandom State.reset &&& 0x0F = 0x07
  rw [h]
  rfl

/-! ### Index and memory (vectors M1 to M18) -/

/-- M1. -/
theorem test_ld_i : after 0xA300 State.reset (fun t => t.i == 0x300) = true := by decide

/-- M3, M4. -/
theorem test_add_i :
    (after 0xF21E ((State.reset.setI 0x0FFF).setV 2 2) (fun t => t.i == 0x1001) &&
      after 0xF21E ((regs12 0 1).setI 0xFFFF) (fun t => t.i == 0 && reg 15 t == 0xAA)) = true := by decide

/-- M5, M8. -/
theorem test_ld_f :
    (after 0xF029 (State.reset.setV 0 5) (fun t =>
        t.i == 0x69 && readByte 0x69 t == 0xF0 && readByte 0x6A t == 0x80 && readByte 0x6B t == 0xF0 &&
        readByte 0x6C t == 0x10 && readByte 0x6D t == 0xF0) &&
      after 0xF029 (State.reset.setV 0 0xFF) (fun t => t.i == 0x54B)) = true := by decide

/-- S5, M10. -/
theorem test_ld_b :
    (after 0xF333 ((State.reset.setV 3 0x9C).setI 0x300) (fun t =>
        readByte 0x300 t == 1 && readByte 0x301 t == 5 && readByte 0x302 t == 6 && t.i == 0x300) &&
      after 0xF333 ((State.reset.setV 3 0xFF).setI 0x300) (fun t =>
        readByte 0x300 t == 2 && readByte 0x301 t == 5 && readByte 0x302 t == 5)) = true := by decide

/-- M12. -/
theorem test_ld_b_wraps :
    after 0xF333 ((State.reset.setV 3 0x9C).setI 0x0FFF) (fun t =>
      readByte 0xFFF t == 1 && readByte 0 t == 5 && readByte 1 t == 6) = true := by decide

/-- M13. -/
theorem test_ld_mem_vx_one :
    after 0xF055 ((State.reset.setV 0 0x11).setI 0x300) (fun t =>
      readByte 0x300 t == 0x11 && readByte 0x301 t == 0 && t.i == 0x300) = true := by decide

/-- M15. -/
theorem test_ld_mem_vx_wraps :
    after 0xF155 (((State.reset.setV 0 0xAA).setV 1 0xBB).setI 0x0FFF) (fun t =>
      readByte 0xFFF t == 0xAA && readByte 0 t == 0xBB) = true := by decide

/-- M16. -/
theorem test_ld_vx_mem :
    after 0xF265 (writeBytes 0x300 [1, 5, 6, 9] ((State.reset.setI 0x300).setV 3 0x77)) (fun t =>
      reg 0 t == 1 && reg 1 t == 5 && reg 2 t == 6 && reg 3 t == 0x77 && t.i == 0x300) = true := by decide

/-- M17's last register. -/
theorem test_ld_vx_mem_vf :
    after 0xFF65 (writeByte 0x30F 0x1F (State.reset.setI 0x300)) (fun t => reg 15 t == 0x1F) = true := by decide

/-- M18. -/
theorem test_font :
    ([0x50, 0x51, 0x52, 0x53, 0x54].map (readByte · State.reset) = [0xF0, 0x90, 0x90, 0x90, 0xF0]) ∧
    ([0x9B, 0x9C, 0x9D, 0x9E, 0x9F].map (readByte · State.reset) = [0xF0, 0x80, 0xF0, 0x80, 0x80]) ∧
    readByte 0x4F State.reset = 0 ∧ readByte 0xA0 State.reset = 0 := by decide

/-! ### Display (vectors D1 to D12) -/

/-- S2, D12, at the corners. -/
theorem test_cls :
    after 0x00E0 (State.reset.setFb (Vector.replicate 64 (Vector.replicate 32 true))) (fun t =>
      shows t.fb [] [(0, 0), (63, 0), (0, 31), (63, 31)]) = true := by decide

/-- D1, D5, D8, D9: the start position and the collision with a set pixel. -/
theorem test_drw :
    (after 0xD011 (sprite [0xFF] 0 0 blankFrame) (fun t =>
        shows t.fb [(0, 0), (7, 0)] [(8, 0), (0, 1)] && reg 15 t == 0) &&
      after 0xD011 (sprite [0x80] 67 35 blankFrame) (fun t => shows t.fb [(3, 3)] [(4, 3), (3, 4)]) &&
      after 0xD011 (sprite [0xFF] 60 0 (lit [(61, 0)])) (fun t =>
        shows t.fb [(60, 0), (63, 0)] [(61, 0), (59, 0), (0, 0)] && reg 15 t == 1) &&
      after 0xD011 (sprite [0x0F] 0 0 (lit [(0, 0)])) (fun t =>
        shows t.fb [(0, 0), (4, 0), (7, 0)] [(3, 0)] && reg 15 t == 0)) = true := by decide

/-- D3, D4, D6, D7, D10, D11: the edge under CLIP and under WRAP, no rows, and VF as the column. -/
theorem test_drw_edge :
    (after 0xD011 (sprite [0xFF] 62 0 blankFrame) (fun t => shows t.fb [(62, 0), (63, 0)] [(0, 0), (5, 0)]) &&
      after 0xD011 (wrapping (sprite [0xFF] 62 0 blankFrame)) (fun t =>
        shows t.fb [(62, 0), (63, 0), (0, 0), (5, 0)] [(61, 0), (6, 0)]) &&
      after 0xD012 (sprite [0x80, 0x80] 0 31 blankFrame) (fun t => shows t.fb [(0, 31)] [(0, 0)]) &&
      after 0xD012 (wrapping (sprite [0x80, 0x80] 0 31 blankFrame)) (fun t => shows t.fb [(0, 31), (0, 0)] [(0, 1)]) &&
      after 0xD010 (sprite [0xFF] 0 0 (lit [(0, 0)])) (fun t => shows t.fb [(0, 0)] [(1, 0)] && reg 15 t == 0) &&
      after 0xDF11 ((sprite [0x80] 0 2 blankFrame).setV 15 5) (fun t => shows t.fb [(5, 2)] [(0, 2)] && reg 15 t == 0)) =
      true := by decide

/-! ### Keys and timers (vectors T1 to T17) -/

/-- T10, T11, T12. -/
theorem test_skp :
    (after 0xE29E ((State.reset.setKey 7 true).setV 2 7) (fun t => t.pc == 0x204) &&
      after 0xE29E (State.reset.setV 2 7) (fun t => t.pc == 0x202) &&
      after 0xE29E ((State.reset.setKey 3 true).setV 2 0x13) (fun t => t.pc == 0x204 && t.key[3])) = true := by decide

/-- T10, T11. -/
theorem test_sknp :
    (after 0xE2A1 ((State.reset.setKey 7 true).setV 2 7) (fun t => t.pc == 0x202) &&
      after 0xE2A1 (State.reset.setV 2 7) (fun t => t.pc == 0x204)) = true := by decide

/-- T1, T2. -/
theorem test_ld_vx_dt :
    (after 0xF307 (State.reset.setDt 0x20) (fun t => reg 3 t == 0x20 && t.dt == 0x1F) &&
      after 0xF307 (State.reset.setV 3 9) (fun t => reg 3 t == 0 && t.dt == 0)) = true := by decide

/-- T8, T9. -/
theorem test_ld_vx_k :
    (after 0xF00A ((State.reset.setDt 2).setV 0 0x55) (fun t => t.pc == 0x200 && reg 0 t == 0x55 && t.dt == 1) &&
      after 0xF00A ((State.reset.setKey 3 true).setKey 9 true) (fun t =>
        reg 0 t == 3 && t.pc == 0x202 && t.key[3] && t.key[9])) = true := by decide

/-- T3, T4. -/
theorem test_ld_dt :
    (after 0xF315 (State.reset.setV 3 5) (fun t => t.dt == 4) && after 0xF315 State.reset (fun t => t.dt == 0)) =
      true := by decide

/-- T5, T6. -/
theorem test_ld_st :
    (after 0xF018 (State.reset.setV 0 1) (fun t => t.st == 0 && t.beep) &&
      after 0xF018 (State.reset.setSt 5) (fun t => t.st == 0 && !t.beep)) = true := by decide

/-- T7. -/
theorem test_sound_timer :
    (after 0x1200 (State.reset.setSt 2) (fun t => t.st == 1 && !t.beep) &&
      after 0x1200 (State.reset.setSt 1) (fun t => t.st == 0 && t.beep)) = true := by decide

/-- T13, T14. -/
theorem test_idle_ticks :
    (next (step ((State.reset.setDt 5).setRun .paused)) (fun t =>
        t.outcome == some .paused && t.dt == 5 && t.pc == 0x200 && t.run == .paused) &&
      next (step ((State.reset.setDt 5).setRun .halted)) (fun t =>
        t.outcome == some .halted && t.dt == 5 && t.pc == 0x200 && t.run == .halted)) = true := by decide

/-- T15. -/
theorem test_run_state :
    (pauseToggleOp State.reset).run = .paused ∧ (pauseToggleOp (State.reset.setRun .paused)).run = .running ∧
    (quitOp State.reset).run = .halted ∧ (pauseToggleOp (quitOp State.reset)).run = .halted := by decide

/-- T16, and a slot that exists. -/
theorem test_set_key :
    (setKeyOp 16 true State.reset).key = State.reset.key ∧ (setKeyOp 15 true State.reset).key[15] = true := by decide

/-- R184: the second read of the beep latch is false. -/
theorem test_beep_pending :
    (beepPendingOp (State.reset.setBeep true)).1 = true ∧
    (beepPendingOp (beepPendingOp (State.reset.setBeep true)).2).1 = false := by decide

/-! ### Witnesses: the hypotheses of each obligation of Certificates/Slice0 are met, each clause at a boundary -/

/-- The hypotheses that the statements about one tick share, but for the outcome. -/
def Ticks (s : State) (i : Instr) (o : TickOutcome) : Prop :=
  s.run = .running ∧ s.fetches i ∧ ∃ t, step s = .next t ∧ t.outcome = some o

/-- EncodeOfDecodeIsTheWord, DecodeFollowsTheOpcodeTable: a word of row SHR, and the row named by another instruction of it. -/
theorem test_witness_decode :
    decodeWord 0x81F6#16 = .ok (.shr 1 15) ∧ 0x81F6#16 &&& (tableRow (.shr 0 0)).2 = (tableRow (.shr 0 0)).1 :=
  ⟨rfl, rfl⟩

/-- UnknownWordsAreTheListedOnes: the words next to the rows of class 8, and the last word of all. -/
theorem test_witness_unknown :
    decodeWord 0x8FF7#16 = .ok (.subn 15 15) ∧ decodeWord 0x8FF8#16 = .error (.unknownOpcode 0x8FF8#16) ∧
    decodeWord 0x8FFD#16 = .error (.unknownOpcode 0x8FFD#16) ∧ decodeWord 0x8FFE#16 = .ok (.shl 15 15) ∧
    decodeWord 0xFFFF#16 = .error (.unknownOpcode 0xFFFF#16) :=
  ⟨rfl, rfl, rfl, rfl, rfl⟩

/-- StepRunsTheDecodedInstruction: an instruction that goes on. -/
theorem test_witness_step_runs :
    ∃ s t : State, s.run = .running ∧ s.fetches (.jp 0x200#12) ∧ exec (.jp 0x200#12) { s with pc := s.pc + 2 } = .next t ∧
      t.run = .running :=
  ⟨State.reset.withFetchWord 16 0x1200, _, rfl, rfl, rfl, rfl⟩

/-- StepRunsTheDecodedInstruction: an instruction that halts. -/
theorem test_witness_step_halts :
    ∃ s t : State, s.run = .running ∧ s.fetches (.call 0xABC#12) ∧ exec (.call 0xABC#12) { s with pc := s.pc + 2 } = .next t ∧
      t.run = .halted :=
  ⟨(State.reset.setSp 16).withFetchWord 16 0x2ABC, _, rfl, rfl, rfl, rfl⟩

/-- UnknownWordHaltsTheMachine, and the first kind of FatalTicksPreserveTheState. -/
theorem test_witness_unknown_word :
    State.reset.run = .running ∧ (∀ i, ¬ State.reset.fetches i) ∧
    ∃ t, step State.reset = .next t ∧ t.outcome = some (.fatal .unknownOpcode) := by
  refine ⟨rfl, fun i h => ?_, _, rfl, rfl⟩
  have e : decodeBytes [readByte State.reset.pc.toNat State.reset, readByte (State.reset.pc + 1).toNat State.reset] =
      .error (.unknownOpcode 0) := rfl
  rw [State.fetches, e] at h
  cases h

/-- FatalTicksPreserveTheState: the other two kinds. -/
theorem test_witness_fatal :
    Ticks ((State.reset.setSp 16).withFetchWord 16 0x2ABC) (.call 0xABC#12) (.fatal .stackOverflow) ∧
    Ticks (State.reset.withFetchWord 16 0x00EE) .ret (.fatal .stackUnderflow) :=
  ⟨⟨rfl, rfl, _, rfl, rfl⟩, rfl, rfl, _, rfl, rfl⟩

/-- IdleTicksChangeNothing. -/
theorem test_witness_idle : (State.reset.setRun .paused).run = .paused ∧ (State.reset.setRun .halted).run = .halted :=
  ⟨rfl, rfl⟩

/-- DelayTimerCountsDownOncePerTick: an LD_DT, and other instructions with DT = 0, 1 and 255. -/
theorem test_witness_delay :
    Ticks ((State.reset.setV 3 255).withFetchWord 16 0xF315) (.ldDt 3) .normal ∧
    Ticks (State.reset.withFetchWord 16 0x1200) (.jp 0x200#12) .normal ∧
    Ticks ((State.reset.setDt 1).withFetchWord 16 0x1200) (.jp 0x200#12) .normal ∧
    Ticks ((State.reset.setDt 255).withFetchWord 16 0x1200) (.jp 0x200#12) .normal ∧ ∀ x, Instr.jp 0x200#12 ≠ .ldDt x :=
  ⟨⟨rfl, rfl, _, rfl, rfl⟩, ⟨rfl, rfl, _, rfl, rfl⟩, ⟨rfl, rfl, _, rfl, rfl⟩, ⟨rfl, rfl, _, rfl, rfl⟩, fun _ => nofun⟩

/-- SoundTimerBeepsWhenItReachesZero: an LD_ST of 1, and other instructions with ST = 0, 1 and 2. -/
theorem test_witness_sound :
    Ticks ((State.reset.setV 0 1).withFetchWord 16 0xF018) (.ldSt 0) .normal ∧
    Ticks (State.reset.withFetchWord 16 0x1200) (.jp 0x200#12) .normal ∧
    Ticks ((State.reset.setSt 1).withFetchWord 16 0x1200) (.jp 0x200#12) .normal ∧
    Ticks ((State.reset.setSt 2).withFetchWord 16 0x1200) (.jp 0x200#12) .normal ∧ ∀ x, Instr.jp 0x200#12 ≠ .ldSt x :=
  ⟨⟨rfl, rfl, _, rfl, rfl⟩, ⟨rfl, rfl, _, rfl, rfl⟩, ⟨rfl, rfl, _, rfl, rfl⟩, ⟨rfl, rfl, _, rfl, rfl⟩, fun _ => nofun⟩

/-- WaitingForAKeyRepeatsTheInstruction, and the first clause of WaitForKeyTakesTheLowestKey. -/
theorem test_witness_waiting :
    ∃ s : State, s.run = .running ∧ s.fetches (.ldVxK 0) ∧ ∀ k : Fin 16, s.key[k] = false :=
  ⟨State.reset.withFetchWord 16 0xF00A, rfl, rfl, by decide⟩

/-- CallPushesOrOverflows: the empty stack, the last free entry, the full stack. -/
theorem test_witness_call :
    State.reset.sp.val < 16 ∧ (State.reset.setSp 15).sp.val < 16 ∧ (State.reset.setSp 16).sp.val = 16 ∧
    (∃ t, exec (.call 0xFFF#12) (State.reset.setSp 15) = .next t ∧ t.sp.val = 16 ∧ t.stack[15] = 0x200#16) :=
  ⟨by decide, by decide, rfl, _, rfl, rfl, rfl⟩

/-- ReturnPopsOrUnderflows: the full stack, one entry, the empty stack. -/
theorem test_witness_ret :
    0 < (State.reset.setSp 16).sp.val ∧ 0 < (State.reset.setSp 1).sp.val ∧ State.reset.sp.val = 0 ∧
    (∃ t, exec .ret ((State.reset.setSp 16).setStack 15 0x456) = .next t ∧ t.sp.val = 15 ∧ t.pc = 0x456#16) :=
  ⟨by decide, by decide, rfl, _, rfl, rfl, rfl⟩

/-- ReturnResumesAfterTheCall, with one free entry. -/
theorem test_witness_call_return :
    ∃ s t : State, s.sp.val < 16 ∧ exec (.call 0x300#12) s = .next t :=
  ⟨State.reset.setSp 15, _, by decide, rfl⟩

/-- The arithmetic statements: a destination that is not VF, and a register that is neither. -/
theorem test_witness_not_flag : (14 : Reg) ≠ 15 ∧ (0 : Reg) ≠ 14 ∧ (0 : Reg) ≠ 15 := by decide

/-- DecimalDigitsAreStored at the top of memory: the memory's form, and addresses on both sides of the digits. -/
theorem test_witness_digits :
    ∃ s : State, s.i = 0x0FFF#16 ∧ Memory.wf s.cfg s.mem ∧ (∀ k < 3, 2 % 4096 ≠ (s.i.toNat + k) % 4096) ∧
      ∀ k < 3, 0xFFE % 4096 ≠ (s.i.toNat + k) % 4096 :=
  ⟨State.reset.setI 0x0FFF, rfl, by decide, by decide, by decide⟩

/-- RegistersAreStoredFromI, StoreThenLoadRegistersRoundTrip: all sixteen registers across the top of memory. -/
theorem test_witness_store :
    ∃ s t : State, s.i = 0x0FF8#16 ∧ Memory.wf s.cfg s.mem ∧ exec (.ldMemVx 15) s = .next t ∧ (15 : Reg) ≤ 15 ∧
      (∀ k ≤ 15, 8 % 4096 ≠ (s.i.toNat + k) % 4096) ∧ (14 : Reg) < 15 :=
  ⟨State.reset.setI 0x0FF8, _, rfl, by decide, rfl, by decide, by decide, by decide⟩

/-- NextFetchReadsTheStoredBytes: two registers, and I = PC only modulo 4096. -/
theorem test_witness_next_fetch :
    ∃ s t : State, Memory.wf s.cfg s.mem ∧ 1 ≤ (1 : Reg).val ∧ s.i.toNat % 4096 = s.pc.toNat % 4096 ∧ s.i ≠ s.pc ∧
      exec (.ldMemVx 1) s = .next t :=
  ⟨State.reset.setI 0x1200, _, by decide, by decide, by decide, by decide, rfl⟩

/-- MemoriesThatReadAlikeAreEqual: two stores in either order, one of which restores the construction byte of glyph 0. -/
theorem test_witness_memories :
    ∃ m m' : Memory, m ≠ [] ∧ Memory.wf State.reset.cfg m ∧ Memory.wf State.reset.cfg m' ∧
      ∀ a < 4096, Memory.read State.reset.cfg m a = Memory.read State.reset.cfg m' a :=
  ⟨Memory.write State.reset.cfg 0x50 0xF0 (Memory.write State.reset.cfg 0x300 7 [(0x50, 1)]), [(0x300, 7)], by decide,
    by decide, by decide, fun _ _ => rfl⟩

/-- DrawInvertsTheCoveredPixels: under CLIP the last column is covered and nothing wraps. -/
theorem test_witness_covers_clip :
    spriteCovers (sprite [0xFF] 62 31 blankFrame) 0 1 1 63 31 ∧ ¬ spriteCovers (sprite [0xFF] 62 31 blankFrame) 0 1 1 0 31 := by
  refine ⟨⟨0, 1, by decide, by decide, by decide, rfl, rfl⟩, ?_⟩
  rintro ⟨r, col, -, -, -, h, -⟩
  have e : (reg 0 (sprite [0xFF] 62 31 blankFrame)).toNat % 64 = 62 := rfl
  have z : (0 : Fin 64).val = 0 := rfl
  omega

/-- The same under WRAP: the first columns are covered too, and the column before the sprite is not. -/
theorem test_witness_covers_wrap :
    spriteCovers (wrapping (sprite [0xFF] 62 31 blankFrame)) 0 1 1 5 31 ∧
    ¬ spriteCovers (wrapping (sprite [0xFF] 62 31 blankFrame)) 0 1 1 6 31 := by
  refine ⟨⟨0, 7, by decide, by decide, by decide, rfl, rfl⟩, ?_⟩
  rintro ⟨r, col, -, hc, -, h, -⟩
  have e : (reg 0 (wrapping (sprite [0xFF] 62 31 blankFrame))).toNat % 64 = 62 := rfl
  have z : (6 : Fin 64).val = 6 := rfl
  omega

/-- DrawingTwiceRestoresTheFrame. -/
theorem test_witness_draw_twice :
    ∃ s t u : State, (0 : Reg) ≠ 15 ∧ (1 : Reg) ≠ 15 ∧ exec (.drw 0 1 15#4) s = .next t ∧
      exec (.drw 0 1 15#4) t = .next u :=
  ⟨State.reset, _, _, by decide, by decide, rfl, rfl⟩

/-- KeySkipsTestTheLatch: the whole byte 0xFF is slot 15. -/
theorem test_witness_key_slot : (15 : Fin 16).val = (reg 2 (State.reset.setV 2 0xFF)).toNat % 16 := by decide

/-- WaitForKeyTakesTheLowestKey: only the last key, and the first of two. -/
theorem test_witness_key :
    ((State.reset.setKey 15 true).key[(15 : Fin 16)] = true ∧ ∀ j : Fin 16, j < 15 → (State.reset.setKey 15 true).key[j] = false) ∧
    (((State.reset.setKey 0 true).setKey 9 true).key[(0 : Fin 16)] = true ∧
      ∀ j : Fin 16, j < 0 → ((State.reset.setKey 0 true).setKey 9 true).key[j] = false) := by decide

/-- The four frames, OnlyRndUsesTheRandomSource and InstructionsWriteOnlyTheirRegisters: each instruction has a next state from the construction state. -/
theorem test_witness_frames :
    [Instr.ldImm 1 2, .addImm 1 2, .ldReg 1 2, .or 1 2, .and 1 2, .xor 1 2, .addReg 1 2, .sub 1 2, .shr 1 2, .subn 1 2,
      .shl 1 2, .rnd 1 2, .ldVxDt 1, .ldVxMem 1, .ret, .jp 5, .call 5, .seImm 1 2, .sneImm 1 2, .seReg 1 2, .sneReg 1 2,
      .jpV0 5, .skp 1, .sknp 1, .ldB 1, .ldMemVx 1, .ldI 5, .addI 1, .ldF 1, .ldDt 1, .ldSt 1, .ldVxK 1, .cls,
      .drw 1 2 15].all (fun i => next (exec i State.reset) (fun _ => true)) = true := by decide

/-- ControlTransfersLeaveTheRest: a CALL and a RET that go on, and a CALL that halts. -/
theorem test_witness_frame_outcomes :
    (next (exec (.call 5) (State.reset.setSp 15)) (fun t => t.run != .halted) &&
      next (exec .ret (State.reset.setSp 1)) (fun t => t.run != .halted) &&
      next (exec (.call 5) (State.reset.setSp 16)) (fun t => t.run == .halted)) = true := by decide

/-- StoresLeaveOtherBytes: the two forms, and an address outside the longest store. -/
theorem test_witness_store_lengths :
    ((Instr.ldB 1 = .ldB 1 ∧ 3 = 3) ∧ (Instr.ldMemVx 15 = .ldMemVx 15 ∧ 16 = (15 : Reg).val + 1)) ∧
    (∀ k < 16, 16 % 4096 ≠ (indexBase State.reset + k) % 4096) := by decide

/-- SetKeyWritesOneSlot: the last slot, and the first index that is none. -/
theorem test_witness_set_key :
    (setKeyOp 15 true State.reset).key ≠ State.reset.key ∧ (setKeyOp 16 true State.reset).key = State.reset.key := by decide

/-- HostOperationsChangeOnlyTheirField and RunStateChangesOnlyByItsTransitions: the three run states, and a tick that halts. -/
theorem test_witness_run_states :
    State.reset.run = .running ∧ (State.reset.setRun .paused).run = .paused ∧ (State.reset.setRun .halted).run = .halted ∧
    (∃ t, perform .tick State.reset = .next t ∧ t.run = .halted) ∧ ∃ t, perform .pauseToggle State.reset = .next t :=
  ⟨rfl, rfl, rfl, ⟨_, rfl, rfl⟩, _, rfl⟩

/-- ConstructLoadsTheImage: the longest image and the first that is too long; the font at either end of its range. -/
theorem test_witness_construct :
    (List.replicate 3584 (7 : Byte)).length ≤ 3584 ∧ 3584 < (List.replicate 3585 (7 : Byte)).length ∧
    3583 < (List.replicate 3584 (7 : Byte)).length ∧ 79 < 80 ∧
    (0x4F < State.reset.cfg.fontBase.val ∨ State.reset.cfg.fontBase.val + 80 ≤ 0x4F) ∧ 0x4F < 0x200 := by
  simp only [List.length_replicate]
  decide

/-- StepKeepsTheInvariant. -/
theorem test_witness_invariant : ∃ s t : State, s.Inv ∧ step s = .next t :=
  ⟨State.reset, _, ⟨by decide, (fun h => by cases h), (fun _ h => by cases h)⟩, rfl⟩

/-- ReachableStatesMeetTheInvariant: the construction state, and what `quit` makes of it. -/
theorem test_witness_reachable : Reachable State.reset ∧ Reachable (quitOp State.reset) :=
  have h : Reachable State.reset := .constructed (c := ⟨0x050, .clip, 0⟩) (image := []) rfl
  ⟨h, .performed (op := .quit) h rfl⟩

/-- HaltedIsForGood and KeysChangeOnlyBySetKey: a script that tries every operation. -/
theorem test_witness_halted :
    ∃ s t : State, s.run = .halted ∧
      performAll [.pauseToggle, .tick, .setKey 3 true, .beepPending, .framebuffer, .quit, .tick] s = .next t :=
  ⟨State.reset.setRun .halted, _, rfl, rfl⟩

/-- OnlyTheNamedInstructionsWriteEachStore: one tick that changes each store. -/
theorem test_witness_stores :
    (after 0xF055 ((State.reset.setV 0 1).setI 0x300) (fun t => readByte 0x300 t == 1) &&
      after 0xD015 (State.reset.setI 0x50) (fun t => pixel t.fb 0 0) &&
      after 0x2ABC State.reset (fun t => t.sp != State.reset.sp) &&
      after 0xA300 State.reset (fun t => t.i != State.reset.i)) = true := by decide

end Sys2Proof.Tests
end

/-! SUPPORT. The law of the decoder's fields (R72): the slices as numbers, and their overlaps. -/

section
namespace Sys2Proof

/-- R72's overlap, read as two equations between slices. -/
theorem Fields.wellFormed_iff (f : Fields) :
    f.wellFormed = true ↔
      f.nn = (BitVec.ofFin f.y : Nibble) ++ f.n ∧ f.nnn = (BitVec.ofFin f.x : Nibble) ++ f.nn := by
  simp [Fields.wellFormed]

/-- A register field in front of `n` further bits, as a number. -/
theorem toNat_append_reg {n : Nat} (x : Reg) (b : BitVec n) :
    ((BitVec.ofFin x : Nibble) ++ b).toNat = x.val * 2 ^ n + b.toNat :=
  toNat_append_eq _ b

theorem fields_nn_eq_append (w : Word) : (fields w).nn = (BitVec.ofFin (fields w).y : Nibble) ++ (fields w).n := by
  apply BitVec.eq_of_toNat_eq
  rw [toNat_append_reg, fields_nn_toNat, fields_y_val, fields_n_toNat]
  omega

theorem fields_nnn_eq_append (w : Word) : (fields w).nnn = (BitVec.ofFin (fields w).x : Nibble) ++ (fields w).nn := by
  apply BitVec.eq_of_toNat_eq
  rw [toNat_append_reg, fields_nnn_toNat, fields_x_val, fields_nn_toNat]
  omega

theorem fields_wellFormed (w : Word) : (fields w).wellFormed = true :=
  (Fields.wellFormed_iff _).mpr ⟨fields_nn_eq_append w, fields_nnn_eq_append w⟩

/-- The class is the top slice: a 16-bit word has no bit above it, so no reduction is left. -/
theorem fields_cls_toNat_eq_div (w : Word) : (fields w).cls.toNat = w.toNat / 4096 := by
  rw [fields_cls_toNat]
  omega

/-- Settles O2: each slice is its own law, and the overlaps are `fields_wellFormed`. -/
theorem fieldsAreTheSlicesOfTheWord : Obligations.FieldsAreTheSlicesOfTheWord := fun w =>
  ⟨fields_cls_toNat_eq_div w, fields_x_val w, fields_y_val w, fields_n_toNat w, fields_nn_toNat w,
    fields_nnn_toNat w, fields_wellFormed w⟩

end Sys2Proof
end

/-! SUPPORT. The laws of the control transfers (R100 to R104): JP, CALL, RET and the skips on an immediate, each as its word
and as the next state it answers. -/

section
namespace Sys2Proof

/-! ### Their words (the Encoding lines) -/

theorem encode_jp_toNat (nnn : Addr) : (encode (.jp nnn)).toNat = 0x1000 + nnn.toNat :=
  toNat_packNNN 0x1#4 nnn

theorem encode_call_toNat (nnn : Addr) : (encode (.call nnn)).toNat = 0x2000 + nnn.toNat :=
  toNat_packNNN 0x2#4 nnn

theorem encode_seImm_toNat (x : Reg) (nn : Byte) : (encode (.seImm x nn)).toNat = 0x3000 + 256 * x.val + nn.toNat := by
  rw [Nat.mul_comm 256]
  exact toNat_packXNN 0x3#4 x nn

theorem encode_sneImm_toNat (x : Reg) (nn : Byte) : (encode (.sneImm x nn)).toNat = 0x4000 + 256 * x.val + nn.toNat := by
  rw [Nat.mul_comm 256]
  exact toNat_packXNN 0x4#4 x nn

namespace Machine

/-! ### JP -/

theorem exec_jp (nnn : Addr) (s : State) : exec (.jp nnn) s = .next (s.setPc (addrOperand nnn)) := rfl

/-! ### CALL and RET, each below and at the bound of the stack -/

theorem exec_call_of_lt (nnn : Addr) {s : State} (h : s.sp.val < 16) :
    exec (.call nnn) s =
      .next (((s.setStack ⟨s.sp.val, h⟩ s.pc).setSp ⟨s.sp.val + 1, by omega⟩).setPc (addrOperand nnn)) := by
  obtain ⟨_, hpush⟩ | ⟨hfull, _⟩ := pushThen_cases s.pc (fun t => .next (t.setPc (addrOperand nnn))) s
  · exact hpush
  · omega

theorem exec_call_of_full (nnn : Addr) {s : State} (h : s.sp.val = 16) :
    exec (.call nnn) s = raiseFatal .stackOverflow s := by
  obtain ⟨hfree, _⟩ | ⟨_, hraise⟩ := pushThen_cases s.pc (fun t => .next (t.setPc (addrOperand nnn))) s
  · omega
  · exact hraise

theorem exec_ret_of_pos {s : State} (h : 0 < s.sp.val) :
    exec .ret s =
      .next ((s.setSp ⟨s.sp.val - 1, by omega⟩).setPc (s.stack[s.sp.val - 1]'(by omega))) := by
  obtain ⟨_, hpop⟩ | ⟨hempty, _⟩ := popThen_cases (fun target t => .next (t.setPc target)) s
  · exact hpop
  · omega

theorem exec_ret_of_empty {s : State} (h : s.sp.val = 0) : exec .ret s = raiseFatal .stackUnderflow s := by
  obtain ⟨hpos, _⟩ | ⟨_, hraise⟩ := popThen_cases (fun target t => .next (t.setPc target)) s
  · omega
  · exact hraise

/-- A write to a stack entry changes that entry only. -/
theorem setStack_getElem (j k : Fin 16) (w : Word) (s : State) :
    (s.setStack j w).stack[k] = if k.val = j.val then w else s.stack[k] := by
  simp [Vector.getElem_set, eq_comm]

/-! ### Skips -/

/-- A skip writes PC only. -/
theorem skipIf_frame (cond : Bool) (s : State) : skipIf cond s = { s with pc := (skipIf cond s).pc } := by
  rw [skipIf_eq]
  rfl

/-- PC after a skip whose test decides `p`, for whichever proposition a rule states the test by. -/
theorem skipIf_pc_toNat {cond : Bool} {p : Prop} [Decidable p] (h : cond = true ↔ p) (s : State) :
    (skipIf cond s).pc.toNat = (s.pc.toNat + if p then 2 else 0) % 65536 := by
  rw [skipIf_eq, State.setPc_pc]
  by_cases hp : p
  · simp [h.mpr hp, hp]
  · have hpc : s.pc.toNat < 65536 := s.pc.isLt
    simp [mt h.mp hp, hp, Nat.mod_eq_of_lt hpc]

theorem exec_seImm (x : Reg) (nn : Byte) (s : State) : exec (.seImm x nn) s = .next (skipIf (reg x s == nn) s) := rfl

theorem exec_sneImm (x : Reg) (nn : Byte) (s : State) : exec (.sneImm x nn) s = .next (skipIf (reg x s != nn) s) := rfl

theorem beq_iff_toNat_eq (a b : Byte) : (a == b) = true ↔ a.toNat = b.toNat := by
  rw [beq_iff_eq, BitVec.toNat_inj]

theorem bne_iff_toNat_ne (a b : Byte) : (a != b) = true ↔ ¬a.toNat = b.toNat := by
  rw [bne_iff_ne, Ne, BitVec.toNat_inj]

end Machine

open Machine

/-! ### The obligations -/

/-- Settles O14: the next state is JP's own law, and the target loses nothing when it is extended. -/
theorem jumpLoadsTheTarget : Obligations.JumpLoadsTheTarget := fun nnn s =>
  ⟨encode_jp_toNat nnn, _, exec_jp nnn s, rfl, addrOperand_toNat nnn⟩

/-- Settles O16: the push with a free entry, and the overflow without one, are the two laws of CALL. -/
theorem callPushesOrOverflows : Obligations.CallPushesOrOverflows := fun nnn s =>
  ⟨encode_call_toNat nnn,
    fun h => ⟨_, exec_call_of_lt nnn h, rfl, addrOperand_toNat nnn, rfl,
      fun k => setStack_getElem ⟨s.sp.val, h⟩ k s.pc s⟩,
    fun h => exec_call_of_full nnn h⟩

/-- Settles O17: the pop and the underflow are the two laws of RET; the popped entry is the one below SP. -/
theorem returnPopsOrUnderflows : Obligations.ReturnPopsOrUnderflows := by
  refine fun s => ⟨rfl, fun h => ⟨_, exec_ret_of_pos h, rfl, Nat.sub_add_cancel h, fun k hk => ?_⟩, exec_ret_of_empty⟩
  have htop : s.sp.val - 1 = k.val := by omega
  simp [htop]

/-- Settles O18: both skips are `skipIf`, on the test and on its negation. -/
theorem immediateSkipsTestTheRegister : Obligations.ImmediateSkipsTestTheRegister := by
  refine fun x nn s => ⟨encode_seImm_toNat x nn, encode_sneImm_toNat x nn,
    ⟨_, exec_seImm x nn s, skipIf_frame _ s, skipIf_pc_toNat (beq_iff_toNat_eq _ _) s⟩,
    ⟨_, exec_sneImm x nn s, skipIf_frame _ s, ?_⟩⟩
  rw [skipIf_pc_toNat (bne_iff_toNat_ne _ _), ite_not]

end Sys2Proof
end

/-! SUPPORT. The laws of the register loads and of the add of an immediate (R110 to R112): each as its word and as the next
state it answers, one register write. -/

section
namespace Sys2Proof

/-! ### Their words (the Encoding lines) -/

theorem encode_ldImm_toNat (x : Reg) (nn : Byte) : (encode (.ldImm x nn)).toNat = 0x6000 + 256 * x.val + nn.toNat := by
  rw [Nat.mul_comm 256]
  exact toNat_packXNN 0x6#4 x nn

theorem encode_addImm_toNat (x : Reg) (nn : Byte) : (encode (.addImm x nn)).toNat = 0x7000 + 256 * x.val + nn.toNat := by
  rw [Nat.mul_comm 256]
  exact toNat_packXNN 0x7#4 x nn

theorem encode_ldReg_toNat (x y : Reg) : (encode (.ldReg x y)).toNat = 0x8000 + 256 * x.val + 16 * y.val := by
  rw [Nat.mul_comm 256, Nat.mul_comm 16]
  exact toNat_packXYN 0x8#4 x y 0x0#4

namespace Machine

/-! ### Their next states -/

theorem exec_ldImm (x : Reg) (nn : Byte) (s : State) : exec (.ldImm x nn) s = .next (s.setV x nn) := rfl

theorem exec_addImm (x : Reg) (nn : Byte) (s : State) : exec (.addImm x nn) s = .next (s.setV x (reg x s + nn)) := rfl

theorem exec_ldReg (x y : Reg) (s : State) : exec (.ldReg x y) s = .next (s.setV x (reg y s)) := rfl

/-- A register write changes the register file only. -/
theorem setV_frame (x : Reg) (b : Byte) (s : State) : s.setV x b = { s with v := (s.setV x b).v } := rfl

/-- An instruction that answers one register write: the register holds the byte, and all else is as before. -/
theorem next_setV_spec {i : Instr} {s : State} {x : Reg} {b : Byte} (h : exec i s = .next (s.setV x b)) :
    ∃ t, exec i s = .next t ∧ t = { s with v := t.v } ∧ reg x t = b ∧ ∀ z, z ≠ x → reg z t = reg z s :=
  ⟨_, h, setV_frame x b s, reg_setV_same x b s, fun _ hz => reg_setV_other hz b s⟩

end Machine

open Machine

/-! ### The obligations -/

/-- Settles O21: both loads answer one register write, of NN or of V[Y]. -/
theorem loadsSetTheRegister : Obligations.LoadsSetTheRegister := fun x y nn s =>
  ⟨encode_ldImm_toNat x nn, encode_ldReg_toNat x y, next_setV_spec (exec_ldImm x nn s), next_setV_spec (exec_ldReg x y s)⟩

/-- Settles O22: one register write, of a sum of bytes, which is reduced modulo 256; no flag is written. -/
theorem addImmediateWrapsWithoutFlag : Obligations.AddImmediateWrapsWithoutFlag := by
  intro x nn s
  obtain ⟨t, hexec, hframe, hsum, hother⟩ := next_setV_spec (exec_addImm x nn s)
  have hmod : (reg x t).toNat = ((reg x s).toNat + nn.toNat) % 256 := by rw [hsum, BitVec.toNat_add]
  exact ⟨encode_addImm_toNat x nn, t, hexec, hframe, hmod, hother⟩

end Sys2Proof
end

/-! SUPPORT. The laws of LD_I (R130): its word, and the next state it answers, one write of the index register. -/

section
namespace Sys2Proof

theorem encode_ldI_toNat (nnn : Addr) : (encode (.ldI nnn)).toNat = 0xA000 + nnn.toNat :=
  toNat_packNNN 0xA#4 nnn

namespace Machine

theorem exec_ldI (nnn : Addr) (s : State) : exec (.ldI nnn) s = .next (s.setI (addrOperand nnn)) := rfl

/-- A write of the index register changes the index register only. -/
theorem setI_frame (w : Word) (s : State) : s.setI w = { s with i := (s.setI w).i } := rfl

end Machine

open Machine

/-- Settles O28: one write of the index register, by the operand, which loses nothing when it is extended. -/
theorem setIndexLoadsTheAddress : Obligations.SetIndexLoadsTheAddress := fun nnn s =>
  ⟨encode_ldI_toNat nnn, _, exec_ldI nnn s, setI_frame (addrOperand nnn) s, addrOperand_toNat nnn⟩

end Sys2Proof
end

/-! SUPPORT. The laws of CLS (R140): its word, and the next state it answers, one write of the framebuffer. -/

section
namespace Sys2Proof

theorem encode_cls : encode .cls = 0x00E0#16 := rfl

namespace Machine

theorem exec_cls (s : State) : exec .cls s = .next (s.setFb blankFrame) := rfl

/-- A write of the framebuffer changes the framebuffer only. -/
theorem setFb_frame (f : Frame) (s : State) : s.setFb f = { s with fb := (s.setFb f).fb } := rfl

end Machine

open Machine

/-- Settles O36: one write of the framebuffer, by the blank frame, in which no pixel is set. -/
theorem clearDisplayClearsEveryPixel : Obligations.ClearDisplayClearsEveryPixel := fun s =>
  ⟨encode_cls, _, exec_cls s, setFb_frame blankFrame s, pixel_blankFrame⟩

end Sys2Proof
end

/-! SUPPORT. The laws of a completed RUNNING tick (R174 to R176): which instruction it executes, what it adds to that
instruction, and which instruction writes DT. -/

section
namespace Sys2Proof.Machine

/-! ### The fetch -/

/-- R70: the two bytes at PC decode to `i` exactly if the fetched word does. -/
theorem State.fetches_iff (s : State) (i : Instr) : s.fetches i ↔ decodeWord (fetchWord s) = .ok i := by
  simp only [State.fetches, decodeBytes, fetchWord]
  cases decodeWord (wordOfBytes (readByte s.pc.toNat s) (readByte (s.pc + 1).toNat s)) <;> simp [Except.map]

/-! ### The tick -/

/-- R174: a tick that returns Normal executed the fetched instruction without a fatal error, and then stepped the timers. -/
theorem exec_of_step_normal {s t : State} {i : Instr} (hrun : s.run = .running) (hfetch : s.fetches i)
    (hstep : step s = .next t) (hnormal : t.outcome = some .normal) :
    ∃ u, exec i (advancePc s) = .next u ∧ t = (timerStep u).setOutcome .normal := by
  obtain ⟨u, hexec, hkept⟩ := exec_next i (advancePc s)
  have hfinish : step s = .next (finishTick u) := by
    rw [step_running hrun, runFetched, (s.fetches_iff i).mp hfetch]
    simp [hexec, afterExec]
  obtain rfl : finishTick u = t := by simpa [hfinish] using hstep
  refine ⟨u, hexec, ?_⟩
  obtain ⟨hsame, -⟩ | ⟨k, hhalted, hfatal⟩ := hkept.run
  · exact finishTick_running (hsame.trans hrun)
  · rw [finishTick_halted hhalted, hfatal] at hnormal
    cases hnormal

/-! ### DT -/

@[simp] theorem skipIf_dt (cond : Bool) (s : State) : (skipIf cond s).dt = s.dt := by
  rw [skipIf_eq, State.setPc_dt]

@[simp] theorem writeBytes_dt (a : Nat) (bs : List Byte) (s : State) : (writeBytes a bs s).dt = s.dt := by
  rw [writeBytes_eq, State.setMem_dt]

@[simp] theorem loadRegs_dt (base : Nat) (ks : List Reg) (s : State) : (loadRegs base ks s).dt = s.dt := by
  rw [loadRegs_eq]

theorem exec_ldDt (x : Reg) (s : State) : exec (.ldDt x) s = .next (s.setDt (reg x s)) := rfl

/-- R154: LD_DT is the only instruction that writes DT. -/
theorem exec_keeps_dt {i : Instr} {s t : State} (hi : ∀ x, i ≠ .ldDt x) (h : exec i s = .next t) : t.dt = s.dt := by
  cases i
  case ldDt x => exact absurd rfl (hi x)
  case ret =>
    obtain ⟨_, e⟩ | ⟨_, e⟩ := popThen_cases (fun target t => .next (t.setPc target)) s <;>
      rw [exec, execRet, e] at h <;> cases h <;> rfl
  case call nnn =>
    obtain ⟨_, e⟩ | ⟨_, e⟩ := pushThen_cases s.pc (fun t => .next (t.setPc (addrOperand nnn))) s <;>
      rw [exec, execCall, e] at h <;> cases h <;> rfl
  case ldVxK x =>
    simp only [exec, execLdVxK] at h
    split at h <;> cases h <;> rfl
  case seImm | sneImm | seReg | sneReg | skp | sknp => cases h; exact skipIf_dt _ s
  case ldB | ldMemVx => cases h; exact writeBytes_dt _ _ s
  case ldVxMem => cases h; exact loadRegs_dt _ _ s
  all_goals cases h; rfl

/-- R176: the timer step counts DT down and stops at 0. -/
theorem timerStep_dt_toNat (s : State) : (timerStep s).dt.toNat = s.dt.toNat - 1 :=
  countdown_toNat s.dt

end Sys2Proof.Machine

namespace Sys2Proof

open Machine

/-- Settles O11: a Normal tick is its instruction and then the timer step, which counts down what the instruction left in DT:
the register's byte after LD_DT, and the old DT after any other. -/
theorem delayTimerCountsDownOncePerTick : Obligations.DelayTimerCountsDownOncePerTick := by
  intro s t i hrun hfetch hstep hnormal
  obtain ⟨u, hexec, rfl⟩ := exec_of_step_normal hrun hfetch hstep hnormal
  rw [State.setOutcome_dt, timerStep_dt_toNat]
  refine ⟨fun x hx => ?_, fun hother => ?_⟩
  · subst hx
    cases (exec_ldDt x (advancePc s)).symm.trans hexec
    rfl
  · rw [exec_keeps_dt hother hexec]
    rfl

end Sys2Proof
end

/-! SUPPORT. The laws of the host's operations that touch one field or none (R170, R171, R183, R184): the next state of each,
and what it returns. -/

section
namespace Sys2Proof.Machine

theorem perform_quit (s : State) : perform .quit s = .next (s.setRun .halted) := rfl

theorem perform_pauseToggle_running {s : State} (h : s.run = .running) :
    perform .pauseToggle s = .next (s.setRun .paused) := by
  simp [perform, pauseToggleOp, h]

theorem perform_pauseToggle_paused {s : State} (h : s.run = .paused) :
    perform .pauseToggle s = .next (s.setRun .running) := by
  simp [perform, pauseToggleOp, h]

theorem perform_pauseToggle_halted {s : State} (h : s.run = .halted) : perform .pauseToggle s = .next s := by
  simp [perform, pauseToggleOp, h]

theorem perform_framebuffer (s : State) : perform .framebuffer s = .next s := rfl

theorem reply_framebuffer (s : State) : reply .framebuffer s = .grid s.fb := rfl

theorem perform_beepPending (s : State) : perform .beepPending s = .next (s.setBeep false) := rfl

theorem reply_beepPending (s : State) : reply .beepPending s = .flag s.beep := rfl

end Sys2Proof.Machine

namespace Sys2Proof

open Machine

/-- Settles O48: one law per operation and run state; the second read of the latch is the reply at the state the first
left. -/
theorem hostOperationsChangeOnlyTheirField : Obligations.HostOperationsChangeOnlyTheirField := fun s =>
  ⟨perform_quit s, perform_pauseToggle_running, perform_pauseToggle_paused, perform_pauseToggle_halted,
    perform_framebuffer s, reply_framebuffer s, perform_beepPending s, reply_beepPending s,
    reply_beepPending (s.setBeep false)⟩

end Sys2Proof
end

/-! SUPPORT. The laws of the decoder and the encoder (R70 to R84): each undoes the other, and both follow the rows of the
opcode table. -/

section
namespace Sys2Proof

/-! ### The decoder after the encoder -/

/-- R72, R76: the decoder reads back what the encoder packed, format by format. -/
theorem decodeWord_encode (i : Instr) : decodeWord (encode i) = .ok i := by
  cases i with
  | cls | ret => rfl
  | jp | call | ldI | jpV0 => simp [decodeWord, decodeFields, encode]
  | seImm | sneImm | ldImm | addImm | rnd => simp [decodeWord, decodeFields, encode]
  | drw => simp [decodeWord, decodeFields, encode]
  | seReg => simp [decodeWord, decodeFields, decodeClass5, encode]
  | sneReg => simp [decodeWord, decodeFields, decodeClass9, encode]
  | ldReg | or | and | xor | addReg | sub | shr | subn | shl =>
    simp [decodeWord, decodeFields, decodeClass8, encode]
  | skp | sknp => simp [decodeWord, decodeFields, decodeClassE, encode]
  | ldVxDt | ldVxK | ldDt | ldSt | addI | ldF | ldB | ldMemVx | ldVxMem =>
    simp [decodeWord, decodeFields, decodeClassF, encode]

/-- R56: the two bytes of an instruction decode as its word does, whatever follows them. -/
theorem decodeBytes_encodeBytes (i : Instr) (rest : List Byte) : decodeBytes (encodeBytes i ++ rest) = .ok (i, rest) := by
  simp [encodeBytes, decodeBytes, decodeWord_encode, Except.map]

/-- Settles O3: on the word by format, and on the bytes because they make up that word. -/
theorem decodeOfEncodeIsTheInstruction : Obligations.DecodeOfEncodeIsTheInstruction := fun i rest =>
  ⟨decodeWord_encode i, decodeBytes_encodeBytes i rest⟩

/-! ### The encoder after the decoder -/

section
variable {w : Word} {i : Instr}

theorem packNNN_of_cls {c : Nibble} (hc : (fields w).cls = c) : packNNN c (fields w).nnn = w := by
  rw [← hc, packNNN_fields]

theorem packXNN_of_cls {c : Nibble} (hc : (fields w).cls = c) : packXNN c (fields w).x (fields w).nn = w := by
  rw [← hc, packXNN_fields]

theorem packXYN_of_cls {c : Nibble} (hc : (fields w).cls = c) :
    packXYN c (fields w).x (fields w).y (fields w).n = w := by
  rw [← hc, packXYN_fields]

theorem packXNN_of_cls_nn {c : Nibble} {nn : Byte} (hc : (fields w).cls = c) (hnn : (fields w).nn = nn) :
    packXNN c (fields w).x nn = w := by
  rw [← hnn, packXNN_of_cls hc]

theorem packXYN_of_cls_n {c n : Nibble} (hc : (fields w).cls = c) (hn : (fields w).n = n) :
    packXYN c (fields w).x (fields w).y n = w := by
  rw [← hn, packXYN_of_cls hc]

theorem encode_of_decodeClass0 (h : decodeClass0 w = .ok i) : encode i = w := by
  unfold decodeClass0 at h
  split at h
  · next hw => cases h; exact hw.symm
  · split at h
    · next hw => cases h; exact hw.symm
    · cases h

theorem encode_of_decodeClass5 (hc : (fields w).cls = 0x5#4) (h : decodeClass5 w (fields w) = .ok i) : encode i = w := by
  unfold decodeClass5 at h
  split at h
  · next hn => cases h; exact packXYN_of_cls_n hc hn
  · cases h

theorem encode_of_decodeClass9 (hc : (fields w).cls = 0x9#4) (h : decodeClass9 w (fields w) = .ok i) : encode i = w := by
  unfold decodeClass9 at h
  split at h
  · next hn => cases h; exact packXYN_of_cls_n hc hn
  · cases h

theorem encode_of_decodeClass8 (hc : (fields w).cls = 0x8#4) (h : decodeClass8 w (fields w) = .ok i) : encode i = w := by
  unfold decodeClass8 at h
  split at h <;> cases h <;> exact packXYN_of_cls_n hc ‹_›

theorem encode_of_decodeClassE (hc : (fields w).cls = 0xE#4) (h : decodeClassE w (fields w) = .ok i) : encode i = w := by
  unfold decodeClassE at h
  split at h <;> cases h <;> exact packXNN_of_cls_nn hc ‹_›

theorem encode_of_decodeClassF (hc : (fields w).cls = 0xF#4) (h : decodeClassF w (fields w) = .ok i) : encode i = w := by
  unfold decodeClassF at h
  split at h <;> cases h <;> exact packXNN_of_cls_nn hc ‹_›

/-- R84: no bit of a word that decodes is lost. -/
theorem encode_of_decodeWord (h : decodeWord w = .ok i) : encode i = w := by
  unfold decodeWord decodeFields at h
  -- the arms stand in the order of the classes, so arm `h_k` is class `k - 1`; the last is what no other arm takes, class F
  split at h
  case h_1 => exact encode_of_decodeClass0 h
  case h_6 hc => exact encode_of_decodeClass5 hc h
  case h_9 hc => exact encode_of_decodeClass8 hc h
  case h_10 hc => exact encode_of_decodeClass9 hc h
  case h_15 hc => exact encode_of_decodeClassE hc h
  case h_16 =>
    simp only [imp_false] at *
    exact encode_of_decodeClassF (by bv_omega) h
  case h_2 hc | h_3 hc | h_11 hc | h_12 hc => cases h; exact packNNN_of_cls hc
  case h_4 hc | h_5 hc | h_7 hc | h_8 hc | h_13 hc => cases h; exact packXNN_of_cls hc
  case h_14 hc => cases h; exact packXYN_of_cls hc

end

/-- Settles O4: the decoder's fields, packed again, are the word. -/
theorem encodeOfDecodeIsTheWord : Obligations.EncodeOfDecodeIsTheWord := fun _ _ => encode_of_decodeWord

/-! ### The rows of the opcode table -/

section
variable {w : Word} {c : Nibble}

theorem cls_of_and_class (h : w &&& 0xF000#16 = packNNN c 0) : (fields w).cls = c := by
  rw [← packNNN_fields w, packNNN_and_mask] at h
  simpa using congrArg (fun w => (fields w).cls) h

theorem cls_nn_of_and_low {nn : Byte} (h : w &&& 0xF0FF#16 = packXNN c 0 nn) :
    (fields w).cls = c ∧ (fields w).nn = nn := by
  rw [← packXNN_fields w, packXNN_and_low] at h
  exact ⟨by simpa using congrArg (fun w => (fields w).cls) h, by simpa using congrArg (fun w => (fields w).nn) h⟩

theorem cls_n_of_and_low {n : Nibble} (h : w &&& 0xF00F#16 = packXYN c 0 0 n) :
    (fields w).cls = c ∧ (fields w).n = n := by
  rw [← packXYN_fields w, packXYN_and_low] at h
  exact ⟨by simpa using congrArg (fun w => (fields w).cls) h, by simpa using congrArg (fun w => (fields w).n) h⟩

/-- A row of format NNN, with the constructor `mk` of its instructions: every word of the row is one of them. -/
theorem decodes_in_row_NNN (mk : Addr → Instr) (hmk : ∀ nnn, encode (mk nnn) = packNNN c nnn)
    {row : Word × Word} (hrow : ∀ nnn, tableRow (mk nnn) = row) (h : w &&& 0xF000#16 = packNNN c 0) :
    ∃ j, decodeWord w = .ok j ∧ tableRow j = row :=
  ⟨mk (fields w).nnn, by rw [← decodeWord_encode, hmk, packNNN_of_cls (cls_of_and_class h)], hrow _⟩

/-- The same of format XNN. -/
theorem decodes_in_row_XNN (mk : Reg → Byte → Instr) (hmk : ∀ x nn, encode (mk x nn) = packXNN c x nn)
    {row : Word × Word} (hrow : ∀ x nn, tableRow (mk x nn) = row) (h : w &&& 0xF000#16 = packNNN c 0) :
    ∃ j, decodeWord w = .ok j ∧ tableRow j = row :=
  ⟨mk (fields w).x (fields w).nn, by rw [← decodeWord_encode, hmk, packXNN_of_cls (cls_of_and_class h)], hrow _ _⟩

/-- The same of format XS, whose rows fix NN. -/
theorem decodes_in_row_XS {nn : Byte} (mk : Reg → Instr) (hmk : ∀ x, encode (mk x) = packXNN c x nn)
    {row : Word × Word} (hrow : ∀ x, tableRow (mk x) = row) (h : w &&& 0xF0FF#16 = packXNN c 0 nn) :
    ∃ j, decodeWord w = .ok j ∧ tableRow j = row := by
  obtain ⟨hc, hnn⟩ := cls_nn_of_and_low h
  exact ⟨mk (fields w).x, by rw [← decodeWord_encode, hmk, packXNN_of_cls_nn hc hnn], hrow _⟩

/-- The same of formats XY0 and XYS, whose rows fix N. -/
theorem decodes_in_row_XYS {n : Nibble} (mk : Reg → Reg → Instr) (hmk : ∀ x y, encode (mk x y) = packXYN c x y n)
    {row : Word × Word} (hrow : ∀ x y, tableRow (mk x y) = row) (h : w &&& 0xF00F#16 = packXYN c 0 0 n) :
    ∃ j, decodeWord w = .ok j ∧ tableRow j = row := by
  obtain ⟨hc, hn⟩ := cls_n_of_and_low h
  exact ⟨mk (fields w).x (fields w).y, by rw [← decodeWord_encode, hmk, packXYN_of_cls_n hc hn], hrow _ _⟩

/-- A word of class D is a DRW. -/
theorem decodes_in_row_drw (h : w &&& 0xF000#16 = packNNN 0xD#4 0) :
    decodeWord w = .ok (.drw (fields w).x (fields w).y (fields w).n) := by
  rw [← decodeWord_encode, encode, packXYN_of_cls (cls_of_and_class h)]

end

/-- R84: a word that has a row's match under its mask decodes, to an instruction of that row. -/
theorem decodes_in_row {w : Word} (i : Instr) (h : w &&& (tableRow i).2 = (tableRow i).1) :
    ∃ j, decodeWord w = .ok j ∧ tableRow j = tableRow i := by
  cases i
  case cls => exact ⟨.cls, by rw [show w = encode .cls from BitVec.and_allOnes.symm.trans h, decodeWord_encode], rfl⟩
  case ret => exact ⟨.ret, by rw [show w = encode .ret from BitVec.and_allOnes.symm.trans h, decodeWord_encode], rfl⟩
  case jp => exact decodes_in_row_NNN .jp (fun _ => rfl) (fun _ => rfl) h
  case call => exact decodes_in_row_NNN .call (fun _ => rfl) (fun _ => rfl) h
  case ldI => exact decodes_in_row_NNN .ldI (fun _ => rfl) (fun _ => rfl) h
  case jpV0 => exact decodes_in_row_NNN .jpV0 (fun _ => rfl) (fun _ => rfl) h
  case seImm => exact decodes_in_row_XNN .seImm (fun _ _ => rfl) (fun _ _ => rfl) h
  case sneImm => exact decodes_in_row_XNN .sneImm (fun _ _ => rfl) (fun _ _ => rfl) h
  case ldImm => exact decodes_in_row_XNN .ldImm (fun _ _ => rfl) (fun _ _ => rfl) h
  case addImm => exact decodes_in_row_XNN .addImm (fun _ _ => rfl) (fun _ _ => rfl) h
  case rnd => exact decodes_in_row_XNN .rnd (fun _ _ => rfl) (fun _ _ => rfl) h
  case drw => exact ⟨_, decodes_in_row_drw h, rfl⟩
  case seReg => exact decodes_in_row_XYS .seReg (fun _ _ => rfl) (fun _ _ => rfl) h
  case ldReg => exact decodes_in_row_XYS .ldReg (fun _ _ => rfl) (fun _ _ => rfl) h
  case or => exact decodes_in_row_XYS .or (fun _ _ => rfl) (fun _ _ => rfl) h
  case and => exact decodes_in_row_XYS .and (fun _ _ => rfl) (fun _ _ => rfl) h
  case xor => exact decodes_in_row_XYS .xor (fun _ _ => rfl) (fun _ _ => rfl) h
  case addReg => exact decodes_in_row_XYS .addReg (fun _ _ => rfl) (fun _ _ => rfl) h
  case sub => exact decodes_in_row_XYS .sub (fun _ _ => rfl) (fun _ _ => rfl) h
  case shr => exact decodes_in_row_XYS .shr (fun _ _ => rfl) (fun _ _ => rfl) h
  case subn => exact decodes_in_row_XYS .subn (fun _ _ => rfl) (fun _ _ => rfl) h
  case shl => exact decodes_in_row_XYS .shl (fun _ _ => rfl) (fun _ _ => rfl) h
  case sneReg => exact decodes_in_row_XYS .sneReg (fun _ _ => rfl) (fun _ _ => rfl) h
  case skp => exact decodes_in_row_XS .skp (fun _ => rfl) (fun _ => rfl) h
  case sknp => exact decodes_in_row_XS .sknp (fun _ => rfl) (fun _ => rfl) h
  case ldVxDt => exact decodes_in_row_XS .ldVxDt (fun _ => rfl) (fun _ => rfl) h
  case ldVxK => exact decodes_in_row_XS .ldVxK (fun _ => rfl) (fun _ => rfl) h
  case ldDt => exact decodes_in_row_XS .ldDt (fun _ => rfl) (fun _ => rfl) h
  case ldSt => exact decodes_in_row_XS .ldSt (fun _ => rfl) (fun _ => rfl) h
  case addI => exact decodes_in_row_XS .addI (fun _ => rfl) (fun _ => rfl) h
  case ldF => exact decodes_in_row_XS .ldF (fun _ => rfl) (fun _ => rfl) h
  case ldB => exact decodes_in_row_XS .ldB (fun _ => rfl) (fun _ => rfl) h
  case ldMemVx => exact decodes_in_row_XS .ldMemVx (fun _ => rfl) (fun _ => rfl) h
  case ldVxMem => exact decodes_in_row_XS .ldVxMem (fun _ => rfl) (fun _ => rfl) h

/-- Settles O5: a decoded word is its instruction's word, which is in its row; and a row's words decode into the row. -/
theorem decodeFollowsTheOpcodeTable : Obligations.DecodeFollowsTheOpcodeTable :=
  ⟨fun _ i h => by rw [← encode_of_decodeWord h, encode_in_row], fun _ i => decodes_in_row i⟩

/-! ### Unknown words (R82) -/

section
variable (w : Word)

/-- A field of a word as a test of the word's number. -/
theorem fields_n_eq_iff (c : Nibble) : (fields w).n = c ↔ w.toNat % 16 = c.toNat := by
  rw [← BitVec.toNat_inj, fields_n_toNat]

theorem fields_nn_eq_iff (c : Byte) : (fields w).nn = c ↔ w.toNat % 256 = c.toNat := by
  rw [← BitVec.toNat_inj, fields_nn_toNat]

theorem fields_cls_eq_iff (c : Nibble) : (fields w).cls = c ↔ w.toNat / 4096 = c.toNat := by
  rw [← BitVec.toNat_inj, fields_cls_toNat_eq_div]

theorem decodeClass0_unknown_iff :
    decodeClass0 w = .error (.unknownOpcode w) ↔ w.toNat ≠ 0x00E0 ∧ w.toNat ≠ 0x00EE := by
  simp only [decodeClass0, ← BitVec.toNat_inj, BitVec.toNat_ofNat]
  split
  · next hcls => simp [hcls]
  · split <;> simp_all

theorem decodeClass5_unknown_iff :
    decodeClass5 w (fields w) = .error (.unknownOpcode w) ↔ w.toNat % 16 ≠ 0 := by
  simp [decodeClass5, fields_n_eq_iff]

theorem decodeClass9_unknown_iff :
    decodeClass9 w (fields w) = .error (.unknownOpcode w) ↔ w.toNat % 16 ≠ 0 := by
  simp [decodeClass9, fields_n_eq_iff]

/-! In the classes that decode on a list of values, each arm fixes the field, and the last one excludes the listed values. -/

theorem decodeClass8_unknown_iff :
    decodeClass8 w (fields w) = .error (.unknownOpcode w) ↔ 8 ≤ w.toNat % 16 ∧ w.toNat % 16 ≠ 0xE := by
  unfold decodeClass8
  split <;> simp only [fields_n_eq_iff, BitVec.toNat_ofNat, imp_false] at * <;> simp <;> omega

theorem decodeClassE_unknown_iff :
    decodeClassE w (fields w) = .error (.unknownOpcode w) ↔ w.toNat % 256 ∉ [0x9E, 0xA1] := by
  unfold decodeClassE
  split <;> simp only [fields_nn_eq_iff, BitVec.toNat_ofNat, imp_false] at * <;> simp <;> omega

theorem decodeClassF_unknown_iff : decodeClassF w (fields w) = .error (.unknownOpcode w) ↔
    w.toNat % 256 ∉ [0x07, 0x0A, 0x15, 0x18, 0x1E, 0x29, 0x33, 0x55, 0x65] := by
  unfold decodeClassF
  split <;> simp only [fields_nn_eq_iff, BitVec.toNat_ofNat, imp_false] at * <;> simp <;> omega

end

/-- Settles O6, class by class: six classes have unknown words, each by its own law, and every word of the others decodes. -/
theorem unknownWordsAreTheListedOnes : Obligations.UnknownWordsAreTheListedOnes := by
  intro w
  have hw := w.isLt
  unfold decodeWord decodeFields
  split <;> simp only [fields_cls_eq_iff, BitVec.toNat_ofNat, imp_false] at *
  case h_1 hc => rw [decodeClass0_unknown_iff]; omega
  case h_6 hc => rw [decodeClass5_unknown_iff]; omega
  case h_9 hc => rw [decodeClass8_unknown_iff]; omega
  case h_10 hc => rw [decodeClass9_unknown_iff]; omega
  case h_15 hc => simp [decodeClassE_unknown_iff, hc]
  case h_16 =>
    have hc : w.toNat / 4096 = 0xF := by omega
    simp [decodeClassF_unknown_iff, hc]
  all_goals
    simp only [reduceCtorEq, false_iff]
    omega

/-- Settles O1: the words of the opcode map, each by evaluating the decoder. -/
theorem familyWordsDecode : Obligations.FamilyWordsDecode :=
  ⟨rfl, rfl, rfl, rfl, rfl, rfl, rfl, rfl, rfl, rfl, rfl⟩

end Sys2Proof
end

/-! SUPPORT. The laws of the assembler's lines (R85): a number that stands for a field is read back as that field. -/

section
namespace Sys2Proof.Machine

@[simp] theorem asmAddr_toNat (nnn : Addr) : asmAddr nnn.toNat = some nnn := by
  simp [asmAddr, numberFits, nnn.isLt]

@[simp] theorem asmByte_toNat (nn : Byte) : asmByte nn.toNat = some nn := by
  simp [asmByte, numberFits, nn.isLt]

@[simp] theorem asmCount_toNat (n : Nibble) : asmCount n.toNat = some n := by
  simp [asmCount, numberFits, n.isLt]

/-- A line without a number is read back by matching alone; SHR and SHL have one line with Y and one without. -/
theorem assembleLine_disassemble (i : Instr) : assembleLine (disassemble i).1 (disassemble i).2 = some i := by
  cases i with
  | shr x y | shl x y =>
    by_cases hy : y = 0
    · subst hy; rfl
    · simp [disassemble, hy, assembleLine]
  | jp | call | ldI | jpV0 => simp [disassemble, assembleLine, assembleLd]
  | seImm | sneImm | ldImm | addImm | rnd | drw => simp [disassemble, assembleLine, assembleLd]
  | _ => rfl

end Sys2Proof.Machine

namespace Sys2Proof

/-- Settles O7: the fields lose nothing as numbers, and no two instructions share a line. -/
theorem disassembledLineAssembles : Obligations.DisassembledLineAssembles := Machine.assembleLine_disassemble

end Sys2Proof
end

/-! SUPPORT. What one instruction leaves alone, said once for all instructions: the footprint of each, and that the next state
agrees with the old one outside it. The frame statements are read from it. -/

section
namespace Sys2Proof.Machine

/-- The parts of the state an instruction may write. `stack` is the entries and SP; `control` is RUN and the recorded outcome,
which a fatal error writes. The configuration and the host's latches are in no footprint. -/
structure Footprint where
  mem : Bool := false
  v : Bool := false
  i : Bool := false
  pc : Bool := false
  stack : Bool := false
  dt : Bool := false
  st : Bool := false
  fb : Bool := false
  control : Bool := false
  draws : Bool := false

/-- What each instruction may write (10_state.md, R22 to R37; 20_memory.md R52). -/
def footprint : Instr → Footprint
  | .cls => { fb := true }
  | .ret | .call _ => { pc := true, stack := true, control := true }
  | .jp _ | .jpV0 _ | .seImm _ _ | .sneImm _ _ | .seReg _ _ | .sneReg _ _ | .skp _ | .sknp _ => { pc := true }
  | .ldImm _ _ | .addImm _ _ | .ldReg _ _ | .or _ _ | .and _ _ | .xor _ _ | .addReg _ _ | .sub _ _ | .shr _ _
  | .subn _ _ | .shl _ _ | .ldVxDt _ | .ldVxMem _ => { v := true }
  | .rnd _ _ => { v := true, draws := true }
  | .ldI _ | .addI _ | .ldF _ => { i := true }
  | .drw _ _ _ => { v := true, fb := true }
  | .ldVxK _ => { v := true, pc := true }
  | .ldDt _ => { dt := true }
  | .ldSt _ => { st := true }
  | .ldB _ | .ldMemVx _ => { mem := true }

/-- `s` with the parts in the footprint taken from `t`. -/
def Footprint.graft (f : Footprint) (s t : State) : State := { s with
  mem := bif f.mem then t.mem else s.mem
  v := bif f.v then t.v else s.v
  i := bif f.i then t.i else s.i
  pc := bif f.pc then t.pc else s.pc
  stack := bif f.stack then t.stack else s.stack
  sp := bif f.stack then t.sp else s.sp
  dt := bif f.dt then t.dt else s.dt
  st := bif f.st then t.st else s.st
  fb := bif f.fb then t.fb else s.fb
  run := bif f.control then t.run else s.run
  outcome := bif f.control then t.outcome else s.outcome
  draws := bif f.draws then t.draws else s.draws }

/-- R31: SP is at most 16. -/
theorem sp_lt_or_full (s : State) : s.sp.val < 16 ∨ s.sp.val = 16 := by
  omega

/-- The next state of an instruction is the old one outside the instruction's footprint. -/
theorem exec_graft {i : Instr} {s t : State} (h : exec i s = .next t) : t = (footprint i).graft s t := by
  cases i with
  | ret =>
    obtain hempty | hpos := Nat.eq_zero_or_pos s.sp.val
    · cases h.symm.trans (exec_ret_of_empty hempty); rfl
    · cases h.symm.trans (exec_ret_of_pos hpos); rfl
  | call nnn =>
    obtain hfree | hfull := sp_lt_or_full s
    · cases h.symm.trans (exec_call_of_lt nnn hfree); rfl
    · cases h.symm.trans (exec_call_of_full nnn hfull); rfl
  | ldVxK x =>
    simp only [exec, execLdVxK] at h
    split at h <;> cases h <;> rfl
  | seImm | sneImm | seReg | sneReg | skp | sknp => cases h; exact skipIf_frame _ s
  | ldB | ldMemVx => cases h; exact writeBytes_eq _ _ s
  | ldVxMem => cases h; exact loadRegs_eq _ _ s
  | _ => cases h; rfl

/-- What it means for `t` to be `s` outside a footprint, part by part. -/
structure SameOutside (f : Footprint) (s t : State) : Prop where
  mem : f.mem = false → t.mem = s.mem
  v : f.v = false → t.v = s.v
  i : f.i = false → t.i = s.i
  pc : f.pc = false → t.pc = s.pc
  stack : f.stack = false → SameStack s t
  dt : f.dt = false → t.dt = s.dt
  st : f.st = false → t.st = s.st
  fb : f.fb = false → t.fb = s.fb
  control : f.control = false → SameControl s t
  draws : f.draws = false → t.draws = s.draws
  cfg : t.cfg = s.cfg
  key : t.key = s.key
  beep : t.beep = s.beep

theorem sameOutside_graft (f : Footprint) (s t : State) : SameOutside f s (f.graft s t) := by
  constructor <;> simp +contextual [Footprint.graft, SameStack, SameControl]

/-- Every instruction leaves everything outside its footprint as it was. -/
theorem exec_sameOutside {i : Instr} {s t : State} (h : exec i s = .next t) : SameOutside (footprint i) s t := by
  rw [exec_graft h]
  exact sameOutside_graft _ s t

/-- What `exec_next` says, of the next state that an instruction is known to answer. -/
theorem exec_kept {i : Instr} {s t : State} (h : exec i s = .next t) : Kept s t := by
  obtain ⟨u, hu, hkept⟩ := exec_next i s
  cases h.symm.trans hu
  exact hkept

/-- Memory that was not written reads as before. -/
theorem SameOutside.sameMemory {f : Footprint} {s t : State} (h : SameOutside f s t) (hf : f.mem = false) :
    SameMemory s t := fun a => by
  simp only [readByte, h.mem hf, h.cfg]

theorem SameOutside.sameRegs {f : Footprint} {s t : State} (h : SameOutside f s t) (hf : f.v = false) (p : Reg → Prop) :
    SameRegsBut p s t := fun y _ => by
  simp only [reg, h.v hf]

/-! ### Which general registers an instruction writes (R24) -/

theorem setV_sameRegsBut (x : Reg) (b : Byte) (s : State) : SameRegsBut (fun y => y = x) s (s.setV x b) :=
  fun _ hy => reg_setV_other hy b s

theorem setResultAndFlag_sameRegsBut (x : Reg) (b : Byte) (set : Bool) (s : State) :
    SameRegsBut (fun y => y = x ∨ y = 15) s (setResultAndFlag x b set s) := fun y hy => by
  obtain ⟨hx, hflag⟩ := not_or.1 hy
  rw [reg_setResultAndFlag, if_neg (show ¬y = flagReg from hflag), if_neg hx]

theorem loadRegs_sameRegsBut (x : Reg) (base : Nat) (s : State) :
    SameRegsBut (fun y => y ≤ x) s (loadRegs base (regsUpTo x) s) := fun y hy => by
  rw [reg_loadRegs, if_neg (mt (mem_regsUpTo x y).1 hy)]

/-- R24: an instruction writes no register but those of its row of the table; VF is V[15]. -/
theorem exec_sameRegsBut {i : Instr} {s t : State} (h : exec i s = .next t) : SameRegsBut (writesReg i) s t := by
  cases i with
  | ldImm | addImm | ldReg | or | and | xor | ldVxDt => cases h; exact setV_sameRegsBut _ _ s
  | rnd => cases h; exact setV_sameRegsBut _ _ (consumeRandom s)
  | ldVxK x =>
    simp only [exec, execLdVxK] at h
    split at h <;> cases h
    · exact fun _ _ => rfl
    · exact setV_sameRegsBut _ _ s
  | addReg | sub | shr | subn | shl => cases h; exact setResultAndFlag_sameRegsBut _ _ _ s
  | drw x y n =>
    cases h
    intro z hz
    exact (reg_setV_other hz _ _).trans (reg_setV_other hz _ s)
  | ldVxMem => cases h; exact loadRegs_sameRegsBut _ _ s
  | _ => exact (exec_sameOutside h).sameRegs rfl _

/-! ### The position of the random source (R193) -/

theorem writeBytes_setDraws (a : Nat) (bs : List Byte) (n : Nat) (s : State) :
    writeBytes a bs (s.setDraws n) = (writeBytes a bs s).setDraws n := by
  induction bs generalizing a s with
  | nil => rfl
  | cons b bs ih => exact ih (a + 1) (writeByte a b s)

theorem loadRegs_setDraws (base : Nat) (ks : List Reg) (n : Nat) (s : State) :
    loadRegs base ks (s.setDraws n) = (loadRegs base ks s).setDraws n := by
  induction ks generalizing s with
  | nil => rfl
  | cons k ks ih => exact ih (s.setV k (readByte (base + k.val) s))

theorem skipIf_setDraws (cond : Bool) (n : Nat) (s : State) :
    skipIf cond (s.setDraws n) = (skipIf cond s).setDraws n := by
  cases cond <;> rfl

/-- R193: without RND, the position of the random source neither matters nor moves. -/
theorem exec_setDraws {i : Instr} {s t : State} (hi : ∀ x nn, i ≠ .rnd x nn) (h : exec i s = .next t) (n : Nat) :
    exec i (s.setDraws n) = .next (t.setDraws n) := by
  cases i with
  | rnd x nn => exact absurd rfl (hi x nn)
  | ret =>
    obtain hempty | hpos := Nat.eq_zero_or_pos s.sp.val
    · cases h.symm.trans (exec_ret_of_empty hempty)
      exact exec_ret_of_empty (s := s.setDraws n) hempty
    · cases h.symm.trans (exec_ret_of_pos hpos)
      exact exec_ret_of_pos (s := s.setDraws n) hpos
  | call nnn =>
    obtain hfree | hfull := sp_lt_or_full s
    · cases h.symm.trans (exec_call_of_lt nnn hfree)
      exact exec_call_of_lt nnn (s := s.setDraws n) hfree
    · cases h.symm.trans (exec_call_of_full nnn hfull)
      exact exec_call_of_full nnn (s := s.setDraws n) hfull
  | ldVxK x =>
    have hkey : lowestKey (s.setDraws n) = lowestKey s := rfl
    simp only [exec, execLdVxK, hkey] at h ⊢
    split at h <;> cases h <;> rfl
  | seImm | sneImm | seReg | sneReg | skp | sknp => cases h; exact congrArg _ (skipIf_setDraws _ n s)
  | ldB | ldMemVx => cases h; exact congrArg _ (writeBytes_setDraws _ _ n s)
  | ldVxMem => cases h; exact congrArg _ (loadRegs_setDraws _ _ n s)
  | _ => cases h; rfl

end Sys2Proof.Machine

namespace Sys2Proof

open Machine

/-! ### The obligations -/

/-- Settles O60: the law `exec_sameRegsBut`, one group of instructions after the other. -/
theorem instructionsWriteOnlyTheirRegisters : Obligations.InstructionsWriteOnlyTheirRegisters :=
  fun _ _ _ => exec_sameRegsBut

/-- Settles O46: every instruction but RND commutes with moving the position. -/
theorem onlyRndUsesTheRandomSource : Obligations.OnlyRndUsesTheRandomSource := fun _ _ _ n hi h => exec_setDraws hi h n

/-- Settles O42: the footprint of each of the fourteen is the register file, and the random source for RND. -/
theorem registerInstructionsLeaveTheRest : Obligations.RegisterInstructionsLeaveTheRest := by
  intro x y nn s t i hi h
  have hfoot : footprint i = { v := true, draws := (footprint i).draws } ∧
      (i ≠ .rnd x nn → (footprint i).draws = false) := by
    revert i
    simp [footprint]
  have hsame := exec_sameOutside h
  rw [hfoot.1] at hsame
  exact ⟨exec_sameRegsBut h, hsame.sameMemory rfl, hsame.i rfl, hsame.pc rfl, hsame.stack rfl, ⟨hsame.dt rfl, hsame.st rfl⟩,
    ⟨hsame.fb rfl, hsame.key, hsame.beep⟩, hsame.control rfl, fun hrnd => hsame.draws (hfoot.2 hrnd)⟩

/-- Settles O43: the footprint of each of the ten is PC, and the stack and the control fields for CALL and RET; a control field
is written by a fatal error only (`Kept`). -/
theorem controlTransfersLeaveTheRest : Obligations.ControlTransfersLeaveTheRest := by
  intro x y nn nnn s t i hi h
  have hfoot : footprint i = { pc := true, stack := (footprint i).stack, control := (footprint i).control } ∧
      (i ≠ .ret → i ≠ .call nnn → (footprint i).stack = false ∧ (footprint i).control = false) := by
    revert i
    simp [footprint]
  have hkept := exec_kept h
  have hsame := exec_sameOutside h
  rw [hfoot.1] at hsame
  refine ⟨hsame.sameRegs rfl _, hsame.sameMemory rfl, hsame.i rfl, ⟨hsame.dt rfl, hsame.st rfl⟩,
    ⟨hsame.fb rfl, hsame.key, hsame.beep⟩, hsame.cfg, hsame.draws rfl, hkept.run.imp And.left fun ⟨_, hrun, _⟩ => hrun,
    fun hrun => ?_, fun hret hcall => ?_⟩
  · obtain ⟨-, houtcome⟩ | ⟨_, hhalted, -⟩ := hkept.run
    · exact houtcome
    · exact absurd hhalted hrun
  · obtain ⟨hstack, hcontrol⟩ := hfoot.2 hret hcall
    exact ⟨hsame.stack hstack, hsame.control hcontrol⟩

/-- Settles O44: the footprint of both is memory, and the bytes they store are the listed ones. -/
theorem storesLeaveOtherBytes : Obligations.StoresLeaveOtherBytes := by
  intro x s t i len hi h
  have hfoot : footprint i = { mem := true } := by
    obtain ⟨rfl, -⟩ | ⟨rfl, -⟩ := hi <;> rfl
  have hbytes : ∃ bs : List Byte, bs.length = len ∧ t = writeBytes (indexBase s) bs s := by
    obtain ⟨rfl, rfl⟩ | ⟨rfl, rfl⟩ := hi <;> cases h
    · exact ⟨_, rfl, rfl⟩
    · exact ⟨_, by rw [List.length_map, regsUpTo_length], rfl⟩
  have hsame := exec_sameOutside h
  rw [hfoot] at hsame
  refine ⟨fun a ha => ?_, hsame.sameRegs rfl _, hsame.i rfl, hsame.pc rfl, hsame.stack rfl, ⟨hsame.dt rfl, hsame.st rfl⟩,
    ⟨hsame.fb rfl, hsame.key, hsame.beep⟩, hsame.control rfl, hsame.draws rfl⟩
  obtain ⟨bs, rfl, rfl⟩ := hbytes
  exact readByte_writeBytes_other ha s

/-- Settles O45: the footprint of each of the eight holds neither memory nor the stack nor the control fields. -/
theorem deviceInstructionsLeaveTheRest : Obligations.DeviceInstructionsLeaveTheRest := by
  intro x y n nnn s t i hi h
  have hfoot : (footprint i).mem = false ∧ (footprint i).stack = false ∧ (footprint i).control = false ∧
      (footprint i).draws = false ∧
      (i ∈ [Instr.ldDt x, .ldSt x, .ldVxK x, .cls, .drw x y n] → (footprint i).i = false) ∧
      (i ≠ .ldVxK x → (footprint i).pc = false) ∧ (i ≠ .ldDt x → (footprint i).dt = false) ∧
      (i ≠ .ldSt x → (footprint i).st = false) ∧
      (i ∈ [Instr.ldI nnn, .addI x, .ldF x, .ldDt x, .ldSt x, .ldVxK x] → (footprint i).fb = false) := by
    revert i
    simp [footprint]
  obtain ⟨hmem, hstack, hcontrol, hdraws, hi', hpc, hdt, hst, hfb⟩ := hfoot
  have hsame := exec_sameOutside h
  exact ⟨exec_sameRegsBut h, hsame.sameMemory hmem, hsame.stack hstack, hsame.key, hsame.beep, hsame.control hcontrol,
    hsame.draws hdraws, hsame.i ∘ hi', hsame.pc ∘ hpc, hsame.dt ∘ hdt, hsame.st ∘ hst, hsame.fb ∘ hfb⟩

end Sys2Proof
end

/-! SUPPORT. The laws of one tick (R172 to R178) and of every host operation: the ways a tick can end, each with the state it
leaves, and what follows from them for the invariant, the run state, the key latch and each store. -/

section
namespace Sys2Proof.Machine

/-! ### The ways a tick can end -/

/-- `Ticked s t`: a tick from `s` ends in `t`. -/
inductive Ticked (s : State) : State → Prop
  /-- R172. -/
  | paused (hrun : s.run = .paused) : Ticked s (s.setOutcome .paused)
  /-- R173. -/
  | halted (hrun : s.run = .halted) : Ticked s (s.setOutcome .halted)
  /-- R82, R163: the bytes at PC are no instruction. -/
  | unknown (hrun : s.run = .running) (hno : ∀ i, ¬ s.fetches i) :
      Ticked s (((advancePc s).setRun .halted).setOutcome (.fatal .unknownOpcode))
  /-- R174: the fetched instruction goes on, and the timers are stepped. -/
  | completed {i : Instr} {u : State} (hrun : s.run = .running) (hfetch : s.fetches i)
      (hexec : exec i (advancePc s) = .next u) (hgoes : u.run = .running) :
      Ticked s ((timerStep u).setOutcome .normal)
  /-- R163: the fetched instruction raises a fatal error, and no timer is stepped. -/
  | fatal {i : Instr} {u : State} {k : FatalKind} (hrun : s.run = .running) (hfetch : s.fetches i)
      (hexec : exec i (advancePc s) = .next u) (hhalts : u.run = .halted) (hfatal : u.outcome = some (.fatal k)) :
      Ticked s u

theorem step_of_unknown {s : State} (hrun : s.run = .running) (hno : ∀ i, ¬ s.fetches i) :
    step s = .next (((advancePc s).setRun .halted).setOutcome (.fatal .unknownOpcode)) := by
  obtain ⟨h, -⟩ | ⟨h, -⟩ | ⟨-, _, -, hstep⟩ | ⟨-, i, _, hdecode, -⟩ := step_cases s
  · cases h.symm.trans hrun
  · cases h.symm.trans hrun
  · exact hstep
  · exact absurd ((s.fetches_iff i).2 hdecode) (hno i)

theorem step_of_fetches {s u : State} {i : Instr} (hrun : s.run = .running) (hfetch : s.fetches i)
    (hexec : exec i (advancePc s) = .next u) : step s = .next (finishTick u) := by
  rw [step_running hrun, runFetched, (s.fetches_iff i).1 hfetch]
  simp [hexec, afterExec]

/-- From a RUNNING machine an instruction leaves RUN as it is, or halts the machine and records a fatal error. -/
theorem exec_run_cases {i : Instr} {s t : State} (hrun : s.run = .running) (h : exec i s = .next t) :
    t.run = .running ∨ t.run = .halted ∧ ∃ k, t.outcome = some (.fatal k) := by
  obtain ⟨hsame, -⟩ | ⟨k, hhalted, hfatal⟩ := (exec_kept h).run
  · exact .inl (hsame.trans hrun)
  · exact .inr ⟨hhalted, k, hfatal⟩

/-- R172 to R174: every tick ends in one of these ways. -/
theorem step_ticked (s : State) : ∃ t, step s = .next t ∧ Ticked s t := by
  obtain ⟨hrun, hstep⟩ | ⟨hrun, hstep⟩ | ⟨hrun, e, hdecode, hstep⟩ | ⟨hrun, i, u, hdecode, hexec, -, hstep⟩ := step_cases s
  · exact ⟨_, hstep, .paused hrun⟩
  · exact ⟨_, hstep, .halted hrun⟩
  · refine ⟨_, hstep, .unknown hrun fun i hi => ?_⟩
    cases hdecode.symm.trans ((s.fetches_iff i).1 hi)
  · have hfetch := (s.fetches_iff i).2 hdecode
    obtain hgoes | ⟨hhalts, k, hfatal⟩ := exec_run_cases (s := advancePc s) hrun hexec
    · rw [finishTick_running hgoes] at hstep
      exact ⟨_, hstep, .completed hrun hfetch hexec hgoes⟩
    · rw [finishTick_halted hhalts] at hstep
      exact ⟨_, hstep, .fatal hrun hfetch hexec hhalts hfatal⟩

theorem ticked_of_step {s t : State} (h : step s = .next t) : Ticked s t := by
  obtain ⟨u, hu, hticked⟩ := step_ticked s
  cases h.symm.trans hu
  exact hticked

/-! ### Instructions that a tick treats apart -/

/-- Only CALL on a full stack and RET on an empty one halt a RUNNING machine (R100, R102, R163). -/
theorem exec_halts_cases {i : Instr} {s t : State} (hrun : s.run = .running) (h : exec i s = .next t)
    (hhalts : t.run = .halted) :
    (∃ nnn, i = .call nnn ∧ s.sp.val = 16 ∧ t = (s.setRun .halted).setOutcome (.fatal .stackOverflow)) ∨
    (i = .ret ∧ s.sp.val = 0 ∧ t = (s.setRun .halted).setOutcome (.fatal .stackUnderflow)) := by
  have hwrites : (footprint i).control ≠ false := fun hcontrol => by
    obtain ⟨hsame, -⟩ := (exec_sameOutside h).control hcontrol
    cases (hsame.trans hrun).symm.trans hhalts
  cases i with
  | call nnn =>
    obtain hfree | hfull := sp_lt_or_full s
    · cases h.symm.trans (exec_call_of_lt nnn hfree)
      cases hhalts.symm.trans hrun
    · cases h.symm.trans (exec_call_of_full nnn hfull)
      exact .inl ⟨nnn, rfl, hfull, rfl⟩
  | ret =>
    obtain hempty | hpos := Nat.eq_zero_or_pos s.sp.val
    · cases h.symm.trans (exec_ret_of_empty hempty)
      exact .inr ⟨rfl, hempty, rfl⟩
    · cases h.symm.trans (exec_ret_of_pos hpos)
      cases hhalts.symm.trans hrun
  | _ => exact absurd rfl hwrites

theorem exec_ldSt (x : Reg) (s : State) : exec (.ldSt x) s = .next (s.setSt (reg x s)) := rfl

theorem exec_ldVxK_of_none (x : Reg) {s : State} (h : lowestKey s = none) : exec (.ldVxK x) s = .next (rewindPc s) := by
  simp only [exec, execLdVxK, h]

/-- R153: the rewind undoes the fetch advance, modulo 65536. -/
theorem rewindPc_advancePc (s : State) : rewindPc (advancePc s) = s := by
  simp [rewindPc, advancePc, State.setPc]

theorem footprint_st_of_ne {i : Instr} (hi : ∀ x, i ≠ .ldSt x) : (footprint i).st = false := by
  cases i with
  | ldSt x => exact absurd rfl (hi x)
  | _ => rfl

/-! ### The invariant -/

/-- A tick keeps the canonical form, because its instruction does and nothing else in it touches memory. -/
theorem ticked_wf {s t : State} (h : Ticked s t) (hwf : Memory.wf s.cfg s.mem) : Memory.wf t.cfg t.mem := by
  cases h with
  | paused | halted | unknown => exact hwf
  | completed _ _ hexec | fatal _ _ hexec => exact (exec_kept hexec).mem hwf

/-- What a tick reports agrees with RUN, from every state. -/
theorem ticked_outcome {s t : State} (h : Ticked s t) :
    (t.outcome = some .halted → t.run = .halted) ∧ ∀ k, t.outcome = some (.fatal k) → t.run = .halted := by
  cases h with
  | paused | completed => exact ⟨nofun, nofun⟩
  | halted hrun => exact ⟨fun _ => hrun, nofun⟩
  | unknown => exact ⟨nofun, fun _ _ => rfl⟩
  | fatal _ _ _ hhalts => exact ⟨fun _ => hhalts, fun _ _ => hhalts⟩

theorem step_keeps_inv {s t : State} (hinv : s.Inv) (h : step s = .next t) : t.Inv :=
  ⟨ticked_wf (ticked_of_step h) hinv.1, ticked_outcome (ticked_of_step h)⟩

/-- The construction state meets the invariant, under every configuration and with any image. -/
theorem construct_inv {c : Config} {image : List Byte} {s : State} (h : construct c image = .ok s) : s.Inv := by
  unfold construct at h
  split at h <;> cases h
  have hwf := writeBytes_wf (s := State.fresh c) (Memory.wf_nil c) loadOffset image
  refine ⟨hwf, ?_⟩
  rw [writeBytes_eq]
  exact ⟨nofun, nofun⟩

theorem setKeyOp_eq (index : Nat) (pressed : Bool) (s : State) :
    setKeyOp index pressed s = { s with key := (setKeyOp index pressed s).key } := by
  unfold setKeyOp
  split <;> rfl

/-- Everything `pause_toggle` can do (R171). -/
theorem pauseToggleOp_cases (s : State) :
    (s.run = .running ∧ pauseToggleOp s = s.setRun .paused) ∨ (s.run = .paused ∧ pauseToggleOp s = s.setRun .running) ∨
    (s.run = .halted ∧ pauseToggleOp s = s) := by
  unfold pauseToggleOp
  split <;> simp_all

/-- `pause_toggle` never meets a recorded Halted or Fatal unless the machine is halted, and then it does nothing. -/
theorem pauseToggleOp_keeps_inv {s : State} (hinv : s.Inv) : (pauseToggleOp s).Inv := by
  obtain ⟨hwf, hhalted, hfatal⟩ := hinv
  obtain ⟨hrun, e⟩ | ⟨hrun, e⟩ | ⟨-, e⟩ := pauseToggleOp_cases s <;> rw [e]
  · exact ⟨hwf, fun h => (nomatch hrun.symm.trans (hhalted h)), fun k h => (nomatch hrun.symm.trans (hfatal k h))⟩
  · exact ⟨hwf, fun h => (nomatch hrun.symm.trans (hhalted h)), fun k h => (nomatch hrun.symm.trans (hfatal k h))⟩
  · exact ⟨hwf, hhalted, hfatal⟩

/-- Every host operation keeps the invariant. -/
theorem perform_keeps_inv {op : HostOp} {s t : State} (hinv : s.Inv) (h : perform op s = .next t) : t.Inv := by
  cases op with
  | tick => exact step_keeps_inv hinv h
  | setKey index pressed => cases h; rw [setKeyOp_eq]; exact hinv
  | framebuffer | beepPending => cases h; exact hinv
  | quit => cases h; exact ⟨hinv.1, fun _ => rfl, fun _ _ => rfl⟩
  | pauseToggle => cases h; exact pauseToggleOp_keeps_inv hinv

theorem reachable_inv {s : State} (h : Reachable s) : s.Inv := by
  induction h with
  | constructed h => exact construct_inv h
  | performed _ h ih => exact perform_keeps_inv ih h

/-! ### The stores -/

/-- A tick that changes one of the stores has fetched an instruction that has the store in its footprint. -/
theorem ticked_stores {s t : State} (h : Ticked s t) :
    (t.mem ≠ s.mem → ∃ i, s.fetches i ∧ (footprint i).mem ≠ false) ∧
    (t.fb ≠ s.fb → ∃ i, s.fetches i ∧ (footprint i).fb ≠ false) ∧
    (¬ SameStack s t → ∃ i, s.fetches i ∧ (footprint i).stack ≠ false) ∧
    (t.i ≠ s.i → ∃ i, s.fetches i ∧ (footprint i).i ≠ false) := by
  cases h with
  | paused | halted | unknown => exact ⟨absurd rfl, absurd rfl, absurd ⟨rfl, rfl⟩, absurd rfl⟩
  | completed _ hfetch hexec | fatal _ hfetch hexec =>
    have hsame := exec_sameOutside hexec
    exact ⟨fun h => ⟨_, hfetch, mt hsame.mem h⟩, fun h => ⟨_, hfetch, mt hsame.fb h⟩,
      fun h => ⟨_, hfetch, mt hsame.stack h⟩, fun h => ⟨_, hfetch, mt hsame.i h⟩⟩

/-! The writers of each store, read from the footprints. -/

theorem footprint_mem {i : Instr} (h : (footprint i).mem ≠ false) : ∃ x, i = .ldB x ∨ i = .ldMemVx x := by
  cases i with
  | ldB x | ldMemVx x => exact ⟨x, by simp⟩
  | _ => exact absurd rfl h

theorem footprint_fb {i : Instr} (h : (footprint i).fb ≠ false) : i = .cls ∨ ∃ x y n, i = .drw x y n := by
  cases i with
  | cls => exact .inl rfl
  | drw x y n => exact .inr ⟨x, y, n, rfl⟩
  | _ => exact absurd rfl h

theorem footprint_stack {i : Instr} (h : (footprint i).stack ≠ false) : i = .ret ∨ ∃ nnn, i = .call nnn := by
  cases i with
  | ret => exact .inl rfl
  | call nnn => exact .inr ⟨nnn, rfl⟩
  | _ => exact absurd rfl h

theorem footprint_i {i : Instr} (h : (footprint i).i ≠ false) : (∃ nnn, i = .ldI nnn) ∨ ∃ x, i = .addI x ∨ i = .ldF x := by
  cases i with
  | ldI nnn => exact .inl ⟨nnn, rfl⟩
  | addI x | ldF x => exact .inr ⟨x, by simp⟩
  | _ => exact absurd rfl h

/-! ### Halted machines -/

/-- R164, R173: no operation brings a HALTED machine out of it, or changes more than the latches and the outcome. -/
theorem perform_of_halted (op : HostOp) {s : State} (hhalted : s.run = .halted) :
    ∃ t, perform op s = .next t ∧ t = { s with key := t.key, beep := t.beep, outcome := t.outcome } := by
  cases op with
  | tick => exact ⟨_, step_halted hhalted, rfl⟩
  | setKey index pressed => exact ⟨_, rfl, by rw [setKeyOp_eq]⟩
  | framebuffer | beepPending => exact ⟨_, rfl, rfl⟩
  | quit => exact ⟨_, rfl, by rw [hhalted]; rfl⟩
  | pauseToggle => exact ⟨_, perform_pauseToggle_halted hhalted, rfl⟩

end Sys2Proof.Machine

namespace Sys2Proof

open Machine

/-- Settles O52: memory by the kept canonical form, the outcome by the way the tick ended. -/
theorem stepKeepsTheInvariant : Obligations.StepKeepsTheInvariant := fun _ _ => step_keeps_inv

/-- Settles O53: the invariant holds of each constructed machine, and each operation keeps it. -/
theorem reachableStatesMeetTheInvariant : Obligations.ReachableStatesMeetTheInvariant := fun _ => reachable_inv

/-- Settles O51: reset is the machine of the empty image. -/
theorem resetMeetsTheInvariant : Obligations.ResetMeetsTheInvariant :=
  construct_inv (c := ⟨fontBaseDefault, drawEdgeDefault, 0⟩) (image := []) rfl

/-- Settles O54: whichever way the tick ends, it records how. -/
theorem everyStepAnswersANextState : Obligations.EveryStepAnswersANextState := by
  intro s
  obtain ⟨t, hstep, hticked⟩ := step_ticked s
  refine ⟨t, hstep, ?_⟩
  cases hticked with
  | paused | halted | unknown | completed => exact nofun
  | fatal _ _ _ _ hfatal => rw [hfatal]; exact nofun

/-! ### One tick (the obligations on a single step) -/

/-- Settles O8: a tick is its instruction and then `finishTick`, which steps the timers of a machine that goes on. -/
theorem stepRunsTheDecodedInstruction : Obligations.StepRunsTheDecodedInstruction := by
  intro s t i hrun hfetch hexec
  have hstep := step_of_fetches hrun hfetch hexec
  refine ⟨(exec_run_cases (s := advancePc s) hrun hexec).imp_right And.left, fun hgoes => ?_, fun hhalts => ?_⟩
  · rw [hstep, finishTick_running hgoes]
    rfl
  · rw [hstep, finishTick_halted hhalts]

/-- Settles O9: the way `Ticked.unknown`, whose updates are the named fields. -/
theorem unknownWordHaltsTheMachine : Obligations.UnknownWordHaltsTheMachine := fun _ => step_of_unknown

/-- Settles O10: the two idle ways a tick can end. -/
theorem idleTicksChangeNothing : Obligations.IdleTicksChangeNothing := fun _ => ⟨step_paused, step_halted⟩

/-- Settles O50: construction stores no byte, and the word of two zero bytes is no instruction. -/
theorem resetIsTheEmptyImageAndHalts : Obligations.ResetIsTheEmptyImageAndHalts := by
  have hdecode : decodeWord (fetchWord State.reset) = .error (.unknownOpcode 0) := rfl
  refine ⟨rfl, step_of_unknown rfl fun i hi => ?_⟩
  cases hdecode.symm.trans ((State.fetches_iff _ i).1 hi)

/-- Settles O12: a Normal tick is its instruction and then the timer step, which counts down what the instruction left in ST
and raises the latch if that was 1; LD_ST alone writes ST, and no instruction writes the latch. -/
theorem soundTimerBeepsWhenItReachesZero : Obligations.SoundTimerBeepsWhenItReachesZero := by
  intro s t i hrun hfetch hstep hnormal
  obtain ⟨u, hexec, rfl⟩ := exec_of_step_normal hrun hfetch hstep hnormal
  have hbeep : u.beep = s.beep := (exec_kept hexec).beep
  have hcount : (timerStep u).st.toNat = u.st.toNat - 1 := countdown_toNat u.st
  have hlatch : (timerStep u).beep = true ↔ s.beep = true ∨ u.st.toNat = 1 := by
    rw [timerStep_eq, hbeep]
    simp [← BitVec.toNat_inj]
  refine ⟨fun x hx => ?_, fun hother => ?_⟩
  · subst hx
    cases (exec_ldSt x (advancePc s)).symm.trans hexec
    exact ⟨hcount, hlatch⟩
  · have hst : u.st = s.st := (exec_sameOutside hexec).st (footprint_st_of_ne hother)
    rw [← hst]
    exact ⟨hcount, hlatch⟩

/-- Settles O13: with no key held LD_VX_K undoes the fetch advance, and the tick completes with the timer step. -/
theorem waitingForAKeyRepeatsTheInstruction : Obligations.WaitingForAKeyRepeatsTheInstruction := by
  intro s x hrun hfetch hkeys
  have hexec : exec (.ldVxK x) (advancePc s) = .next s := by
    rw [exec_ldVxK_of_none x ((lowestKey_none (advancePc s)).2 hkeys), rewindPc_advancePc]
  refine ⟨(timerStep s).setOutcome .normal, ?_, rfl, countdown_toNat s.dt, countdown_toNat s.st⟩
  rw [step_of_fetches hrun hfetch hexec, finishTick_running hrun]

/-- Settles O55: only an unknown word, a CALL on a full stack and a RET on an empty one end a RUNNING tick in a fatal error, and
each leaves the state as the fetch left it. -/
theorem fatalTicksPreserveTheState : Obligations.FatalTicksPreserveTheState := by
  intro s t k hrun hstep hfatal
  cases ticked_of_step hstep with
  | paused h | halted h => cases h.symm.trans hrun
  | completed => cases hfatal
  | unknown _ hno =>
    cases hfatal
    exact ⟨rfl, .inl ⟨rfl, hno⟩⟩
  | fatal _ hfetch hexec hhalts _ =>
    obtain ⟨nnn, rfl, hfull, rfl⟩ | ⟨rfl, hempty, rfl⟩ :=
      exec_halts_cases (s := advancePc s) hrun hexec hhalts <;> cases hfatal
    · exact ⟨rfl, .inr (.inl ⟨rfl, hfull, nnn, hfetch⟩)⟩
    · exact ⟨rfl, .inr (.inr ⟨rfl, hempty, hfetch⟩)⟩

/-! ### Whole-machine rules -/

/-- Settles O56: by the operation, and for a tick by the way it ended. -/
theorem runStateChangesOnlyByItsTransitions : Obligations.RunStateChangesOnlyByItsTransitions := by
  intro op s t h
  cases op with
  | tick =>
    cases ticked_of_step h with
    | paused | halted => exact .inl rfl
    | unknown hrun => exact .inr (.inr (.inr (.inr ⟨rfl, hrun, rfl, _, rfl⟩)))
    | completed hrun _ _ hgoes => exact .inl (hgoes.trans hrun.symm)
    | fatal hrun _ _ hhalts hfatal => exact .inr (.inr (.inr (.inr ⟨rfl, hrun, hhalts, _, hfatal⟩)))
  | setKey index pressed => cases h; rw [setKeyOp_eq]; exact .inl rfl
  | framebuffer | beepPending => cases h; exact .inl rfl
  | quit => cases h; exact .inr (.inr (.inr (.inl ⟨rfl, rfl⟩)))
  | pauseToggle =>
    cases h
    obtain ⟨hrun, e⟩ | ⟨hrun, e⟩ | ⟨-, e⟩ := pauseToggleOp_cases s <;> rw [e]
    · exact .inr (.inl ⟨rfl, hrun, rfl⟩)
    · exact .inr (.inr (.inl ⟨rfl, hrun, rfl⟩))
    · exact .inl rfl

/-- Settles O57: one operation from a HALTED machine leaves it HALTED, and so does any script. -/
theorem haltedIsForGood : Obligations.HaltedIsForGood := by
  intro ops s t hhalted h
  induction ops generalizing s with
  | nil => cases h; rfl
  | cons op ops ih =>
    obtain ⟨u, hu, hframe⟩ := perform_of_halted op hhalted
    rw [performAll, hu] at h
    have hrun : u.run = .halted := by rw [hframe]; exact hhalted
    rw [ih u hrun h, hframe]

/-- Settles O58: only `set_key` writes the latch; a tick keeps it because every instruction does. -/
theorem keysChangeOnlyBySetKey : Obligations.KeysChangeOnlyBySetKey := by
  intro op s t h
  cases op with
  | tick =>
    cases ticked_of_step h with
    | paused | halted | unknown => exact ⟨rfl, fun _ => rfl⟩
    | completed _ _ hexec | fatal _ _ hexec => exact ⟨(exec_kept hexec).cfg, fun _ => (exec_kept hexec).key⟩
  | setKey index pressed =>
    cases h
    rw [setKeyOp_eq]
    exact ⟨rfl, fun hno => absurd rfl (hno index pressed)⟩
  | framebuffer | beepPending | quit => cases h; exact ⟨rfl, fun _ => rfl⟩
  | pauseToggle =>
    cases h
    obtain ⟨-, e⟩ | ⟨-, e⟩ | ⟨-, e⟩ := pauseToggleOp_cases s <;> rw [e] <;> exact ⟨rfl, fun _ => rfl⟩

/-- Settles O59: a store that a tick changes is in the footprint of the fetched instruction, and the footprints name the
writers of each store. -/
theorem onlyTheNamedInstructionsWriteEachStore : Obligations.OnlyTheNamedInstructionsWriteEachStore := by
  intro s t h
  obtain ⟨hmem, hfb, hstack, hi⟩ := ticked_stores (ticked_of_step h)
  refine ⟨fun hne => ?_, fun hne => ?_, fun hne => ?_, fun hne => ?_⟩
  · obtain ⟨i, hfetch, hwrites⟩ := hmem hne
    obtain ⟨x, rfl | rfl⟩ := footprint_mem hwrites
    · exact ⟨x, .inl hfetch⟩
    · exact ⟨x, .inr hfetch⟩
  · obtain ⟨i, hfetch, hwrites⟩ := hfb hne
    obtain rfl | ⟨x, y, n, rfl⟩ := footprint_fb hwrites
    · exact .inl hfetch
    · exact .inr ⟨x, y, n, hfetch⟩
  · obtain ⟨i, hfetch, hwrites⟩ := hstack (not_and_or.2 hne)
    obtain rfl | ⟨nnn, rfl⟩ := footprint_stack hwrites
    · exact .inl hfetch
    · exact .inr ⟨nnn, hfetch⟩
  · obtain ⟨i, hfetch, hwrites⟩ := hi hne
    obtain ⟨nnn, rfl⟩ | ⟨x, rfl | rfl⟩ := footprint_i hwrites
    · exact .inl ⟨nnn, hfetch⟩
    · exact .inr ⟨x, .inl hfetch⟩
    · exact .inr ⟨x, .inr hfetch⟩

end Sys2Proof
end

/-! SUPPORT. The laws of `set_key` (R182) and `construct` (R200 to R203): the one slot that is written, and what each byte of a
constructed memory is. -/

section
namespace Sys2Proof.Machine

/-! ### set_key -/

theorem setKeyOp_getElem (index : Nat) (pressed : Bool) (s : State) (k : Fin 16) :
    (setKeyOp index pressed s).key[k] = if k.val = index then pressed else s.key[k] := by
  unfold setKeyOp
  split
  · simp [Vector.getElem_set, eq_comm]
  · have hk : k.val ≠ index := by omega
    simp [hk]

/-! ### construct -/

theorem construct_of_gt (c : Config) {image : List Byte} (h : 3584 < image.length) :
    construct c image = .error .imageTooLarge := by
  simp [construct, imageFits, h]

theorem construct_of_le (c : Config) {image : List Byte} (h : image.length ≤ 3584) :
    construct c image = .ok (writeBytes loadOffset image (State.fresh c)) := by
  simp [construct, imageFits, h]

/-- Storing bytes leaves every field but memory as it was. -/
theorem writeBytes_fresh (c : Config) (image : List Byte) :
    writeBytes loadOffset image (State.fresh c) =
      { State.fresh c with mem := (writeBytes loadOffset image (State.fresh c)).mem } :=
  writeBytes_eq _ _ _

/-- Before any store, an address below 4096 reads as its construction byte. -/
theorem readByte_fresh (c : Config) {a : Nat} (h : a < 4096) : readByte a (State.fresh c) = initialByte c a := by
  simp [readByte, State.fresh, Memory.read, Memory.find, cellOf, Nat.mod_eq_of_lt h]

theorem initialByte_font (c : Config) (k : Nat) : initialByte c (c.fontBase.val + k) = fontTable.getD k 0 := by
  simp [initialByte, fontByte]

theorem initialByte_of_not_font (c : Config) {a : Nat} (h : a < c.fontBase.val ∨ c.fontBase.val + 80 ≤ a) :
    initialByte c a = 0 := by
  unfold initialByte fontByte
  split
  · exact List.getD_eq_default _ _ (show 80 ≤ a - c.fontBase.val by omega)
  · rfl

section
variable (c : Config) {image : List Byte} (hfits : image.length ≤ 3584)
include hfits

theorem readByte_construct_image {k : Nat} (hk : k < image.length) :
    readByte (0x200 + k) (writeBytes loadOffset image (State.fresh c)) = image[k] :=
  readByte_writeBytes_same (s := State.fresh c) (Memory.wf_nil c) 0x200 (by omega) hk

/-- The image ends at 4096, so no byte of it wraps to an address outside its own range. -/
theorem readByte_construct_outside {a : Nat} (ha : a < 4096) (hout : a < 0x200 ∨ 0x200 + image.length ≤ a) :
    readByte a (writeBytes loadOffset image (State.fresh c)) = initialByte c a := by
  rw [readByte_writeBytes_other, readByte_fresh c ha]
  intro k hk
  simp only [cellOf, loadOffset]
  omega

end

end Sys2Proof.Machine

namespace Sys2Proof

open Machine

/-- Settles O47: the frame and the slots of `setKeyOp`, for indices that name a slot and for those that do not. -/
theorem setKeyWritesOneSlot : Obligations.SetKeyWritesOneSlot := fun index pressed s =>
  ⟨_, rfl, setKeyOp_eq index pressed s, setKeyOp_getElem index pressed s⟩

/-- Settles O49: the image's bytes read as stored and every other address as its construction byte, which is the font's or 0;
the other fields are those of `State.fresh`. -/
theorem constructLoadsTheImage : Obligations.ConstructLoadsTheImage := by
  refine fun c image => ⟨construct_of_gt c, fun hfits => ⟨_, construct_of_le c hfits, ?_⟩⟩
  have himage := fun k hk => readByte_construct_image c hfits (k := k) hk
  have hfont : ∀ k < 80, readByte (c.fontBase.val + k) (writeBytes loadOffset image (State.fresh c)) = fontTable.getD k 0 := by
    intro k hk
    rw [readByte_construct_outside c hfits (by omega) (.inl (by omega)), initialByte_font]
  have hzero : ∀ a < 4096, (a < c.fontBase.val ∨ c.fontBase.val + 80 ≤ a) → (a < 0x200 ∨ 0x200 + image.length ≤ a) →
      readByte a (writeBytes loadOffset image (State.fresh c)) = 0 := by
    intro a ha hnofont hout
    rw [readByte_construct_outside c hfits ha hout, initialByte_of_not_font c hnofont]
  refine ⟨by rw [writeBytes_fresh]; rfl, himage, hfont, hzero, ?_⟩
  rw [writeBytes_fresh]
  simp [State.fresh, reg, entryPc, pixel]

end Sys2Proof
end

/-! SUPPORT. The laws of the remaining control transfers (R105 to R107, R150, R151), each as the next state it answers, and
of a RET after a CALL. -/

section
namespace Sys2Proof.Machine

/-! ### JP_V0 -/

theorem exec_jpV0 (nnn : Addr) (s : State) :
    exec (.jpV0 nnn) s = .next (s.setPc (addrOperand nnn + wordOperand 0 s)) := rfl

/-- R107: a 12-bit address and a byte have a 16-bit sum. -/
theorem addrOperand_add_wordOperand_toNat (nnn : Addr) (x : Reg) (s : State) :
    (addrOperand nnn + wordOperand x s).toNat = nnn.toNat + (reg x s).toNat := by
  rw [BitVec.toNat_add, addrOperand_toNat, wordOperand_toNat]
  omega

/-! ### Skips -/

theorem exec_seReg (x y : Reg) (s : State) : exec (.seReg x y) s = .next (skipIf (reg x s == reg y s) s) := rfl

theorem exec_sneReg (x y : Reg) (s : State) : exec (.sneReg x y) s = .next (skipIf (reg x s != reg y s) s) := rfl

theorem exec_skp (x : Reg) (s : State) : exec (.skp x) s = .next (skipIf (keyPressed x s) s) := rfl

theorem exec_sknp (x : Reg) (s : State) : exec (.sknp x) s = .next (skipIf (!keyPressed x s) s) := rfl

/-- R150: the key slot is V[X] modulo 16. -/
theorem keyPressed_eq {x : Reg} {s : State} {k : Fin 16} (hk : k.val = (reg x s).toNat % 16) :
    keyPressed x s = s.key[k] := by
  simp [keyPressed, ← hk]

/-- An instruction that skips by a test which decides `p`: only PC changes, by 2 exactly where `p` holds. -/
theorem next_skipIf_spec {i : Instr} {s : State} {cond : Bool} {p : Prop} [Decidable p] (hcond : cond = true ↔ p)
    (h : exec i s = .next (skipIf cond s)) :
    ∃ t, exec i s = .next t ∧ t = { s with pc := t.pc } ∧ t.pc.toNat = (s.pc.toNat + if p then 2 else 0) % 65536 :=
  ⟨_, h, skipIf_frame _ s, skipIf_pc_toNat hcond s⟩

/-- The same where the test decides the negation of `p`. -/
theorem next_skipIf_not_spec {i : Instr} {s : State} {cond : Bool} {p : Prop} [Decidable p] (hcond : cond = true ↔ ¬p)
    (h : exec i s = .next (skipIf cond s)) :
    ∃ t, exec i s = .next t ∧ t = { s with pc := t.pc } ∧ t.pc.toNat = (s.pc.toNat + if p then 0 else 2) % 65536 := by
  simpa only [ite_not] using next_skipIf_spec hcond h

end Sys2Proof.Machine

namespace Sys2Proof

open Machine

/-- Settles O15: one write of PC, by a sum that does not reach 65536. -/
theorem jumpWithOffsetAddsV0 : Obligations.JumpWithOffsetAddsV0 := fun nnn s =>
  ⟨_, exec_jpV0 nnn s, rfl, addrOperand_add_wordOperand_toNat nnn 0 s⟩

/-- Settles O19: both skips are `skipIf`, on the comparison of the registers and on its negation. -/
theorem registerSkipsCompareTheRegisters : Obligations.RegisterSkipsCompareTheRegisters := fun x y s =>
  ⟨next_skipIf_spec (beq_iff_toNat_eq _ _) (exec_seReg x y s),
    next_skipIf_not_spec (bne_iff_toNat_ne _ _) (exec_sneReg x y s)⟩

/-- Settles O39: both skips are `skipIf`, on the slot and on its negation. -/
theorem keySkipsTestTheLatch : Obligations.KeySkipsTestTheLatch := fun x s k hk =>
  ⟨next_skipIf_spec (by rw [keyPressed_eq hk]) (exec_skp x s),
    next_skipIf_not_spec (by simp [keyPressed_eq hk]) (exec_sknp x s)⟩

/-- Settles O20: the entry that RET pops is the one CALL pushed, and CALL wrote no entry below it. -/
theorem returnResumesAfterTheCall : Obligations.ReturnResumesAfterTheCall := by
  intro nnn s t pc hfree hcall
  cases (exec_call_of_lt nnn hfree).symm.trans hcall
  refine ⟨_, exec_ret_of_pos (Nat.succ_pos _), ?_, rfl, rfl, fun k hk => ?_⟩
  · exact Vector.getElem_set_self _
  · exact (setStack_getElem ⟨s.sp.val, hfree⟩ k s.pc s).trans (if_neg (by simpa using hk.ne))

end Sys2Proof
end

/-! SUPPORT. The laws of the arithmetic, logic, shift and random instructions (R113 to R122): each answers one register write, or
a result and its flag. -/

section
namespace Sys2Proof.Machine

theorem exec_or (x y : Reg) (s : State) : exec (.or x y) s = .next (s.setV x (reg x s ||| reg y s)) := rfl

theorem exec_and (x y : Reg) (s : State) : exec (.and x y) s = .next (s.setV x (reg x s &&& reg y s)) := rfl

theorem exec_xor (x y : Reg) (s : State) : exec (.xor x y) s = .next (s.setV x (reg x s ^^^ reg y s)) := rfl

theorem exec_addReg (x y : Reg) (s : State) : exec (.addReg x y) s =
    .next (setResultAndFlag x (reg x s + reg y s) (carryFlag (reg x s) (reg y s)) s) := rfl

theorem exec_sub (x y : Reg) (s : State) : exec (.sub x y) s =
    .next (setResultAndFlag x (reg x s - reg y s) (noBorrowFlag (reg x s) (reg y s)) s) := rfl

theorem exec_subn (x y : Reg) (s : State) : exec (.subn x y) s =
    .next (setResultAndFlag x (reg y s - reg x s) (noBorrowFlag (reg y s) (reg x s)) s) := rfl

theorem exec_shr (x y : Reg) (s : State) : exec (.shr x y) s =
    .next (setResultAndFlag x (reg x s >>> 1) (lowBitFlag (reg x s)) s) := rfl

theorem exec_shl (x y : Reg) (s : State) : exec (.shl x y) s =
    .next (setResultAndFlag x (reg x s <<< 1) (highBitFlag (reg x s)) s) := rfl

theorem exec_rnd (x : Reg) (nn : Byte) (s : State) :
    exec (.rnd x nn) s = .next ((consumeRandom s).setV x (nextRandom s &&& nn)) := rfl

/-! ### Flags and results as numbers -/

theorem flagByte_carry_toNat (a b : Byte) :
    (flagByte (carryFlag a b)).toNat = if a.toNat + b.toNat > 255 then 1 else 0 := by
  simp only [flagByte, carryFlag, decide_eq_true_eq]
  split <;> rfl

theorem flagByte_noBorrow_toNat (a b : Byte) :
    (flagByte (noBorrowFlag a b)).toNat = if a.toNat > b.toNat then 1 else 0 := by
  simp only [flagByte, noBorrowFlag, decide_eq_true_eq]
  split <;> rfl

theorem flagByte_getLsbD_toNat (a : Byte) (k : Nat) : (flagByte (a.getLsbD k)).toNat = a.toNat / 2 ^ k % 2 := by
  simp only [flagByte, BitVec.getLsbD, Nat.testBit_eq_decide_div_mod_eq, decide_eq_true_eq]
  split
  · next h => rw [h]; rfl
  · next h => exact (Nat.mod_two_ne_one.1 h).symm

theorem sub_toNat (a b : Byte) : (a - b).toNat = (a.toNat + 256 - b.toNat) % 256 := by
  rw [BitVec.toNat_sub]
  omega

/-- R116: an instruction that answers a result and its flag. The flag wins for X = 15. -/
theorem next_setResultAndFlag_spec {i : Instr} {s : State} {x : Reg} {r : Byte} {set : Bool}
    (h : exec i s = .next (setResultAndFlag x r set s)) {flag result : Nat} (hflag : (flagByte set).toNat = flag)
    (hresult : r.toNat = result) :
    ∃ t, exec i s = .next t ∧ t = { s with v := t.v } ∧ (reg 15 t).toNat = flag ∧
      (x ≠ 15 → (reg x t).toNat = result) ∧ ∀ z, z ≠ x → z ≠ 15 → reg z t = reg z s := by
  refine ⟨_, h, rfl, ?_, fun hx => ?_, fun z hx hz => ?_⟩
  · rw [← hflag]
    exact congrArg BitVec.toNat (reg_setV_same 15 _ _)
  · rw [← hresult]
    exact congrArg BitVec.toNat ((reg_setV_other hx _ _).trans (reg_setV_same x r s))
  · exact setResultAndFlag_sameRegsBut x r set s z (not_or.2 ⟨hx, hz⟩)

end Sys2Proof.Machine

namespace Sys2Proof

open Machine

/-- Settles O23: each answers one register write, of a bitwise operation. -/
theorem logicWorksBitByBit : Obligations.LogicWorksBitByBit := by
  intro x y s
  obtain ⟨t, hor, hframe, hx, hother⟩ := next_setV_spec (exec_or x y s)
  obtain ⟨t', hand, hframe', hx', hother'⟩ := next_setV_spec (exec_and x y s)
  obtain ⟨t'', hxor, hframe'', hx'', hother''⟩ := next_setV_spec (exec_xor x y s)
  exact ⟨⟨t, hor, hframe, hother, fun k => by rw [hx, BitVec.getLsbD_or]⟩,
    ⟨t', hand, hframe', hother', fun k => by rw [hx', BitVec.getLsbD_and]⟩,
    ⟨t'', hxor, hframe'', hother'', fun k => by rw [hx'', BitVec.getLsbD_xor]⟩⟩

/-- Settles O24: a result and its flag, which are the sum modulo 256 and its carry. -/
theorem addRegistersSetsTheCarry : Obligations.AddRegistersSetsTheCarry := fun x y s =>
  next_setResultAndFlag_spec (exec_addReg x y s) (flagByte_carry_toNat _ _) (BitVec.toNat_add _ _)

/-- Settles O25: a result and its flag, with the operands of SUBN exchanged. -/
theorem subtractionsSetStrictNoBorrow : Obligations.SubtractionsSetStrictNoBorrow := fun x y s =>
  ⟨next_setResultAndFlag_spec (exec_sub x y s) (flagByte_noBorrow_toNat _ _) (sub_toNat _ _),
    next_setResultAndFlag_spec (exec_subn x y s) (flagByte_noBorrow_toNat _ _) (sub_toNat _ _)⟩

/-- Settles O26: a result and its flag, which is the bit at the end of V[X] that the shift drops. -/
theorem shiftsMoveTheBitIntoTheFlag : Obligations.ShiftsMoveTheBitIntoTheFlag := by
  intro x y s
  have hbyte := (reg x s).isLt
  refine ⟨next_setResultAndFlag_spec (exec_shr x y s) ((flagByte_getLsbD_toNat _ 0).trans ?_) ?_,
    next_setResultAndFlag_spec (exec_shl x y s) ((flagByte_getLsbD_toNat _ 7).trans ?_) ?_⟩
  · simp
  · simp [Nat.shiftRight_eq_div_pow]
  · omega
  · simp [Nat.shiftLeft_eq, Nat.mul_comm]

/-- Settles O27: the draw masked is one register write, beside the advance of the position. -/
theorem randomIsTheMaskedDraw : Obligations.RandomIsTheMaskedDraw := by
  intro x nn s
  have hx : reg x ((consumeRandom s).setV x (nextRandom s &&& nn)) = nextRandom s &&& nn := reg_setV_same x _ _
  refine ⟨_, exec_rnd x nn s, rfl, fun k => ?_, ?_, fun z hz => reg_setV_other hz _ (consumeRandom s)⟩
  · rw [hx, BitVec.getLsbD_and]
    rfl
  · rw [hx, BitVec.and_assoc]
    simp

end Sys2Proof
end

/-! SUPPORT. The laws of the index arithmetic (R131, R133) and of the timer and key-wait instructions (R152 to R155). -/

section
namespace Sys2Proof.Machine

theorem exec_addI (x : Reg) (s : State) : exec (.addI x) s = .next (s.setI (s.i + wordOperand x s)) := rfl

theorem exec_ldF (x : Reg) (s : State) : exec (.ldF x) s = .next (s.setI (fontAddress x s)) := rfl

/-- R133: FONT_BASE is below 433 and a byte below 256, so no bit is lost. -/
theorem fontAddress_toNat (x : Reg) (s : State) :
    (fontAddress x s).toNat = s.cfg.fontBase.val + 5 * (reg x s).toNat := by
  have := (reg x s).isLt
  rw [fontAddress, BitVec.toNat_ofNat]
  omega

theorem exec_ldVxDt (x : Reg) (s : State) : exec (.ldVxDt x) s = .next (s.setV x s.dt) := rfl

theorem exec_ldVxK_of_some (x : Reg) {s : State} {k : Reg} (h : lowestKey s = some k) :
    exec (.ldVxK x) s = .next (s.setV x (BitVec.ofNat 8 k.val)) := by
  simp only [exec, execLdVxK, h]

/-- R27: the rewind, as a number. -/
theorem rewindPc_pc_toNat (s : State) : (rewindPc s).pc.toNat = (s.pc.toNat + 65534) % 65536 := by
  show (s.pc - 2).toNat = _
  rw [BitVec.toNat_sub]
  simp [Nat.add_comm]

end Sys2Proof.Machine

namespace Sys2Proof

open Machine

/-- Settles O29: each is one write of the index register. -/
theorem indexArithmeticKeeps16Bits : Obligations.IndexArithmeticKeeps16Bits := fun x s =>
  ⟨⟨_, exec_addI x s, rfl, by rw [State.setI_i, BitVec.toNat_add, wordOperand_toNat]⟩,
    ⟨_, exec_ldF x s, rfl, fontAddress_toNat x s⟩⟩

/-- Settles O40: the two arms of LD_VX_K, chosen by the lowest pressed key. -/
theorem waitForKeyTakesTheLowestKey : Obligations.WaitForKeyTakesTheLowestKey := by
  intro x s
  refine ⟨fun hnone => ⟨_, exec_ldVxK_of_none x ((lowestKey_none s).2 hnone), rfl, rewindPc_pc_toNat s⟩,
    fun k hk hlow => ?_⟩
  obtain ⟨t, hexec, hframe, hx, hother⟩ :=
    next_setV_spec (exec_ldVxK_of_some x ((lowestKey_some s k).2 ⟨hk, hlow⟩))
  exact ⟨t, hexec, hframe, by rw [hx]; simp; omega, hother⟩

/-- Settles O41: one register write, and one write of each timer. -/
theorem timersAreReadAndWritten : Obligations.TimersAreReadAndWritten := fun x s =>
  ⟨next_setV_spec (exec_ldVxDt x s), exec_ldDt x s, exec_ldSt x s⟩

end Sys2Proof
end

/-! SUPPORT. The laws of the memory instructions (R134 to R137): the bytes they store and load, and that the canonical form
of a memory is determined by what it reads. -/

section
namespace Sys2Proof.Machine

/-! ### Reading -/

/-- R53: an access sees its address modulo 4096 only. -/
theorem readByte_congr {a a' : Nat} (h : cellOf a = cellOf a') (s : State) : readByte a s = readByte a' s := by
  simp only [readByte, h]

/-! ### What each instruction stores or loads -/

theorem exec_ldB (x : Reg) (s : State) :
    exec (.ldB x) s = .next (writeBytes s.i.toNat (decimalDigits (reg x s)) s) := rfl

theorem exec_ldMemVx (x : Reg) (s : State) :
    exec (.ldMemVx x) s = .next (writeBytes s.i.toNat ((regsUpTo x).map fun k => reg k s) s) := rfl

theorem exec_ldVxMem (x : Reg) (s : State) :
    exec (.ldVxMem x) s = .next (loadRegs s.i.toNat (regsUpTo x) s) := rfl

theorem regsUpTo_getElem {x k : Reg} (h : k.val < (regsUpTo x).length) : (regsUpTo x)[k.val] = k :=
  Fin.ext (regsUpTo_get x k.val h)

/-- R135: the byte at I + k is V[k], for k up to X. -/
theorem readByte_storeRegs {s : State} (hwf : Memory.wf s.cfg s.mem) {x k : Reg} (hk : k ≤ x) :
    readByte (s.i.toNat + k.val) (writeBytes s.i.toNat ((regsUpTo x).map fun k => reg k s) s) = reg k s := by
  have hlen : k.val < (regsUpTo x).length := by rw [regsUpTo_length]; exact Nat.lt_succ_of_le hk
  have hx := x.isLt
  rw [readByte_writeBytes_same hwf _ (by rw [List.length_map, regsUpTo_length]; omega) (by rwa [List.length_map]),
    List.getElem_map, regsUpTo_getElem hlen]

/-- R135: no byte outside I to I + X is written. -/
theorem readByte_storeRegs_other (s : State) {x : Reg} {a : Nat} (ha : ∀ k ≤ x.val, a % 4096 ≠ (s.i.toNat + k) % 4096) :
    readByte a (writeBytes s.i.toNat ((regsUpTo x).map fun k => reg k s) s) = readByte a s := by
  refine readByte_writeBytes_other (fun k hk => ha k ?_) s
  rw [List.length_map, regsUpTo_length] at hk
  omega

/-- R136: V[k] is the byte at I + k, for k up to X, and the other registers are as before. -/
theorem reg_loadFromI (x k : Reg) (s : State) : reg k (loadRegs s.i.toNat (regsUpTo x) s) =
    if k ≤ x then readByte (s.i.toNat + k.val) s else reg k s := by
  simp only [reg_loadRegs, mem_regsUpTo]

/-- R134: the digits of a byte, each less than 256. -/
theorem decimalDigits_toNat (b : Byte) :
    (decimalDigits b).map BitVec.toNat = [b.toNat / 100, b.toNat / 10 % 10, b.toNat % 10] := by
  have hb := b.isLt
  simp only [decimalDigits, List.map_cons, List.map_nil, BitVec.toNat_ofNat]
  simp
  omega

/-- R134: the bytes at I, I + 1 and I + 2 are the digits. -/
theorem readByte_storeDigits_toNat {s : State} (hwf : Memory.wf s.cfg s.mem) (b : Byte) {k : Nat} (hk : k < 3) :
    (readByte (s.i.toNat + k) (writeBytes s.i.toNat (decimalDigits b) s)).toNat =
      [b.toNat / 100, b.toNat / 10 % 10, b.toNat % 10][k] := by
  simp only [← decimalDigits_toNat b, List.getElem_map]
  exact congrArg _ (readByte_writeBytes_same (bs := decimalDigits b) hwf _ (show 3 ≤ 4096 by decide) hk)

/-! ### The canonical form -/

/-- A canonical memory lists exactly the addresses below 4096 that read other than after construction, with what they read. -/
theorem Memory.mem_iff_read {c : Config} {m : Memory} (h : Memory.wf c m) (p : Host.Cell) :
    p ∈ m ↔ p.1 < 4096 ∧ Memory.read c m p.1 = p.2 ∧ p.2 ≠ initialByte c p.1 := by
  have hread : ∀ b, Memory.find p.1 m = some b → Memory.read c m p.1 = b := fun b hb => by rw [Memory.read, hb]; rfl
  refine ⟨fun hp => ⟨(h.2 p hp).1, hread _ (Memory.find_of_mem h.1 hp), (h.2 p hp).2⟩, fun ⟨_, hp, hne⟩ => ?_⟩
  refine Memory.mem_of_find (a := p.1) (b := p.2) ?_
  rw [Memory.find_eq_read h, hp, if_neg hne]

/-- Two lists of strictly rising addresses with the same entries are the same list. -/
theorem Memory.eq_of_read_eq {c : Config} {m m' : Memory} (h : Memory.wf c m) (h' : Memory.wf c m')
    (hread : ∀ a < 4096, Memory.read c m a = Memory.read c m' a) : m = m' := by
  have hirrefl : Std.Irrefl fun p q : Host.Cell => p.1 < q.1 := ⟨fun p => lt_irrefl p.1⟩
  refine List.Pairwise.eq_of_mem_iff h.1 h'.1 fun p => ?_
  rw [Memory.mem_iff_read h, Memory.mem_iff_read h']
  exact and_congr_right fun hp => by rw [hread p.1 hp]

end Sys2Proof.Machine

namespace Sys2Proof

open Machine

/-- Settles O30: three bytes are stored from I on, and they are the digits. -/
theorem decimalDigitsAreStored : Obligations.DecimalDigitsAreStored := fun x s hwf =>
  ⟨_, exec_ldB x s, writeBytes_eq _ _ s, readByte_storeDigits_toNat hwf _ (k := 0) (by decide),
    readByte_storeDigits_toNat hwf _ (k := 1) (by decide), readByte_storeDigits_toNat hwf _ (k := 2) (by decide),
    fun _ ha => readByte_writeBytes_other (bs := decimalDigits (reg x s)) ha s⟩

/-- Settles O31: X + 1 bytes are stored from I on, the k-th of them V[k]. -/
theorem registersAreStoredFromI : Obligations.RegistersAreStoredFromI := fun x s hwf =>
  ⟨_, exec_ldMemVx x s, writeBytes_eq _ _ s, fun _ hk => readByte_storeRegs hwf hk,
    fun _ ha => readByte_storeRegs_other s ha⟩

/-- Settles O32: the listed registers are those up to X. -/
theorem registersAreLoadedFromI : Obligations.RegistersAreLoadedFromI := fun x s =>
  ⟨_, exec_ldVxMem x s, loadRegs_eq _ _ s, fun k hk => by rw [reg_loadFromI, if_pos hk],
    fun k hk => by rw [reg_loadFromI, if_neg hk.not_ge]⟩

/-- Settles O33: the store leaves I, so the load reads the stored bytes; the zeroed registers are in no address. -/
theorem storeThenLoadRegistersRoundTrip : Obligations.StoreThenLoadRegistersRoundTrip := by
  intro x s t hwf hstore
  have hi : t.i = s.i := (exec_sameOutside hstore).i rfl
  cases (exec_ldMemVx x s).symm.trans hstore
  refine ⟨_, exec_ldVxMem x _, fun k hk => ?_, fun k hk => ?_⟩
  · rw [reg_loadFromI, if_pos hk]
    simp only [hi]
    exact readByte_storeRegs hwf hk
  · rw [reg_loadFromI, if_neg hk.not_ge]
    simp [reg]

/-- Settles O34: PC is unchanged by the store, and its two byte addresses are those of I and I + 1. -/
theorem nextFetchReadsTheStoredBytes : Obligations.NextFetchReadsTheStoredBytes := by
  intro x s t hwf hx hsame hstore
  have hpc : t.pc = s.pc := (exec_sameOutside hstore).pc rfl
  cases (exec_ldMemVx x s).symm.trans hstore
  have hhigh : cellOf s.pc.toNat = cellOf (s.i.toNat + (0 : Reg).val) := hsame.symm
  have hlow : cellOf (s.pc + 1).toNat = cellOf (s.i.toNat + (1 : Reg).val) := by
    show (s.pc.toNat + 1) % 65536 % 4096 = (s.i.toNat + 1) % 4096
    omega
  rw [fetchWord, toNat_wordOfBytes, hpc, readByte_congr hhigh, readByte_congr hlow,
    readByte_storeRegs hwf (Fin.zero_le x), readByte_storeRegs hwf (Fin.le_def.2 hx)]

/-- Settles O35: what a canonical memory lists is determined by what it reads, and so is its order. -/
theorem memoriesThatReadAlikeAreEqual : Obligations.MemoriesThatReadAlikeAreEqual := fun _ _ _ => Memory.eq_of_read_eq

end Sys2Proof
end

/-! SUPPORT. The law of DRW (R141 to R146): the model's drawing inverts the pixels that `spriteCovers` names, and VF is the
collision. -/

section
namespace Sys2Proof.Machine

theorem exec_drw (x y : Reg) (n : Nibble) (s : State) :
    exec (.drw x y n) s = .next (setFlag (drawing x y n s).2 ((setFlag false s).setFb (drawing x y n s).1)) := rfl

/-- R144: a target lands on a pixel exactly if it is placed there. -/
theorem landsOn_iff_place (edge : DrawEdge) (x y : Nat) (px : Fin 64) (py : Fin 32) :
    landsOn edge x y px py ↔ place edge x y = some (px, py) := by
  have hx := px.isLt
  have hy := py.isLt
  rw [place_eq_some]
  cases edge with
  | clip => simp [landsOn]
  | wrap =>
    simp only [landsOn, true_and]
    omega

theorem spriteCovers_iff_lands (s : State) (x y : Reg) (n : Nibble) (px : Fin 64) (py : Fin 32) :
    spriteCovers s x y n px py ↔
      Lands s.cfg.drawEdge (startColumn x s) (startRow y s) (spriteBytes n s) (px, py) := by
  simp only [spriteCovers, Lands, landsOn_iff_place, spriteBytes_get, spriteBytes_length, startColumn, startRow]
  constructor
  · rintro ⟨r, col, hr, hcol, hbit, hplace⟩
    exact ⟨r, hr, col, hcol, hbit, hplace⟩
  · rintro ⟨r, hr, col, hcol, hbit, hplace⟩
    exact ⟨r, col, hr, hcol, hbit, hplace⟩

/-- R145: what DRW draws, pixel by pixel, and its collision. -/
theorem drawing_spec (x y : Reg) (n : Nibble) (s : State) :
    (∀ px py, spriteCovers s x y n px py → pixel (drawing x y n s).1 px py = !pixel s.fb px py) ∧
    (∀ px py, ¬ spriteCovers s x y n px py → pixel (drawing x y n s).1 px py = pixel s.fb px py) ∧
    ((drawing x y n s).2 = true ↔ ∃ px py, spriteCovers s x y n px py ∧ pixel s.fb px py = true) := by
  have hrows : (spriteBytes n s).length ≤ 32 := by
    have := n.isLt
    rw [spriteBytes_length]
    omega
  obtain ⟨hin, hout, hflag⟩ := drawRows_spec s.cfg.drawEdge (startColumn x s) (startRow y s) hrows s.fb
  simp only [spriteCovers_iff_lands]
  exact ⟨hin, hout, hflag.trans (by simp only [and_comm])⟩

theorem flagByte_toNat_le (set : Bool) : (flagByte set).toNat ≤ 1 := by
  cases set <;> decide

theorem flagByte_toNat_eq_one (set : Bool) : (flagByte set).toNat = 1 ↔ set = true := by
  cases set <;> decide

/-- R141 to R146: DRW as the obligation states it. VF is V[15] (D1). -/
theorem exec_drw_spec {x y : Reg} {n : Nibble} {s t : State} (h : exec (.drw x y n) s = .next t) :
    t = { s with v := t.v, fb := t.fb } ∧
    (∀ px py, spriteCovers s x y n px py → pixel t.fb px py = !pixel s.fb px py) ∧
    (∀ px py, ¬ spriteCovers s x y n px py → pixel t.fb px py = pixel s.fb px py) ∧
    (reg 15 t).toNat ≤ 1 ∧
    ((reg 15 t).toNat = 1 ↔ ∃ px py, spriteCovers s x y n px py ∧ pixel s.fb px py = true) ∧
    ∀ z, z ≠ 15 → reg z t = reg z s := by
  have hregs : SameRegsBut (fun z => z = 15) s t := exec_sameRegsBut h
  cases (exec_drw x y n s).symm.trans h
  obtain ⟨hin, hout, hflag⟩ := drawing_spec x y n s
  have hvf : reg 15 (setFlag (drawing x y n s).2 ((setFlag false s).setFb (drawing x y n s).1)) =
      flagByte (drawing x y n s).2 := reg_setV_same 15 _ _
  refine ⟨rfl, hin, hout, ?_, ?_, hregs⟩
  · rw [hvf]
    exact flagByte_toNat_le _
  · rw [hvf, flagByte_toNat_eq_one, hflag]

/-- R141, R142: after a DRW the sprite covers the pixels it covered before, unless VF is one of its coordinates. -/
theorem spriteCovers_after_drw {x y : Reg} {n : Nibble} {s t : State} (hx : x ≠ 15) (hy : y ≠ 15)
    (h : exec (.drw x y n) s = .next t) (px : Fin 64) (py : Fin 32) :
    spriteCovers t x y n px py ↔ spriteCovers s x y n px py := by
  have hsame := exec_sameOutside h
  have hregs : SameRegsBut (fun z => z = 15) s t := exec_sameRegsBut h
  have hread : ∀ a, readByte a t = readByte a s := hsame.sameMemory rfl
  simp only [spriteCovers, hregs x hx, hregs y hy, hsame.i rfl, hsame.cfg, hread]

end Sys2Proof.Machine

namespace Sys2Proof

open Machine

/-- Settles O37: every DRW has a next state, and `exec_drw_spec` says what it is. -/
theorem drawInvertsTheCoveredPixels : Obligations.DrawInvertsTheCoveredPixels := fun x y n s =>
  ⟨_, exec_drw x y n s, exec_drw_spec (exec_drw x y n s)⟩

/-- Settles O38: the second draw covers the same pixels, because neither its coordinates, nor I, nor memory has changed; each
covered pixel is inverted twice, and collides in the second draw if it was clear before the first. -/
theorem drawingTwiceRestoresTheFrame : Obligations.DrawingTwiceRestoresTheFrame := by
  intro x y n s t u hx hy hfirst hsecond
  obtain ⟨-, hin, hout, -⟩ := exec_drw_spec hfirst
  obtain ⟨-, hin', hout', -, hflag, -⟩ := exec_drw_spec hsecond
  have hcovers := spriteCovers_after_drw hx hy hfirst
  refine ⟨frame_ext fun px py => ?_, hflag.trans ?_⟩
  · by_cases hc : spriteCovers s x y n px py
    · rw [hin' px py ((hcovers px py).2 hc), hin px py hc, Bool.not_not]
    · rw [hout' px py (mt (hcovers px py).1 hc), hout px py hc]
  · refine exists_congr fun px => exists_congr fun py => ?_
    rw [hcovers]
    refine and_congr_right fun hc => ?_
    rw [hin px py hc, Bool.not_eq_true']

end Sys2Proof
end
